-- ==== Sys2Proof/Word.lean ====
section
/-! DEFINITION. The word types of the core: bytes, 16-bit words, the 12-bit immediate address and the register index
(spec/00_scope.md section 5: every value is an unsigned integer of a stated width). -/

namespace Sys2Proof

/-- An 8-bit value: a general register, a timer, a byte of memory (R20, R27, R28, R50). -/
abbrev Byte := BitVec 8

/-- A 16-bit value: an instruction word, I, PC, a return address (R22 to R24, R70). -/
abbrev Word := BitVec 16

/-- The 12-bit immediate `nnn` (R71, R73). -/
abbrev Addr12 := BitVec 12

/-- The index of a general register, 0 to 15 (R20, R73: "x and y are register indices 0 to 15 used directly"). -/
abbrev Reg := Fin 16

end Sys2Proof
end

