-- ==== Sys2Proof/Syntax.lean ====
section
/-! DEFINITION. The 35 instructions, one constructor per row of spec/opcode_table.json (R75), in the order of the table.
Operands are what R73 says they are: register indices, an 8-bit immediate, a 12-bit address, a count of rows. -/

namespace Sys2Proof

/-- An instruction of the core. The pattern of each row is quoted after it. -/
inductive Instr where
  | nop                                   -- 0000
  | cls                                   -- 00E0
  | ret                                   -- 00EE
  | jp     (nnn : Addr12)                 -- 1nnn
  | call   (nnn : Addr12)                 -- 2nnn
  | seImm  (x : Reg) (nn : Byte)          -- 3xnn
  | sneImm (x : Reg) (nn : Byte)          -- 4xnn
  | seReg  (x y : Reg)                    -- 5xy0
  | ldImm  (x : Reg) (nn : Byte)          -- 6xnn
  | addImm (x : Reg) (nn : Byte)          -- 7xnn
  | ldReg  (x y : Reg)                    -- 8xy0
  | or     (x y : Reg)                    -- 8xy1
  | and    (x y : Reg)                    -- 8xy2
  | xor    (x y : Reg)                    -- 8xy3
  | addReg (x y : Reg)                    -- 8xy4
  | sub    (x y : Reg)                    -- 8xy5
  | shr    (x : Reg)                      -- 8xy6, y ignored (R78)
  | subn   (x y : Reg)                    -- 8xy7
  | shl    (x : Reg)                      -- 8xyE, y ignored (R78)
  | sneReg (x y : Reg)                    -- 9xy0
  | ldIdx  (nnn : Addr12)                 -- Annn
  | jpV0   (nnn : Addr12)                 -- Bnnn
  | rnd    (x : Reg) (nn : Byte)          -- Cxnn
  | drw    (x y : Reg) (n : Nat)          -- Dxyn, n a count of rows
  | skp    (x : Reg)                      -- Ex9E
  | sknp   (x : Reg)                      -- ExA1
  | ldVdt  (x : Reg)                      -- Fx07
  | ldK    (x : Reg)                      -- Fx0A
  | ldDt   (x : Reg)                      -- Fx15
  | ldSt   (x : Reg)                      -- Fx18
  | addIdx (x : Reg)                      -- Fx1E
  | ldF    (x : Reg)                      -- Fx29
  | ldB    (x : Reg)                      -- Fx33
  | stM    (x : Reg)                      -- Fx55
  | ldM    (x : Reg)                      -- Fx65
  deriving DecidableEq, Repr

end Sys2Proof
end

