-- ==== Sys2Proof/WellFormed.lean ====
section
/-! DEFINITION. Which instructions have an encoding. Register indices and immediates carry their width in their type, so
the one thing left to check is DRW's count of rows, which has 4 bits (R73: "an unsigned row count 0 to 15"; R161 (f):
"there is no 16-row form"). -/

namespace Sys2Proof

/-- The instruction can be encoded: DRW names at most 15 rows (R73, R161 (f)). -/
def Instr.wellFormed : Instr → Bool
  | .drw _ _ n => n ≤ 15
  | .nop | .cls | .ret | .jp _ | .call _ | .seImm _ _ | .sneImm _ _ | .seReg _ _ => true
  | .ldImm _ _ | .addImm _ _ | .ldReg _ _ | .or _ _ | .and _ _ | .xor _ _ | .addReg _ _ => true
  | .sub _ _ | .shr _ | .subn _ _ | .shl _ | .sneReg _ _ | .ldIdx _ | .jpV0 _ | .rnd _ _ => true
  | .skp _ | .sknp _ | .ldVdt _ | .ldK _ | .ldDt _ | .ldSt _ | .addIdx _ | .ldF _ => true
  | .ldB _ | .stM _ | .ldM _ => true

end Sys2Proof
end

