-- ==== Sys2Proof/Decode.lean ====
section
/-! DEFINITION. The decoder (R71, R74), the encoder (R72, R83) and the opcode map (R75), each written from its own rule of
spec/30_encoding.md. -/

namespace Sys2Proof

/-- Why bytes are not an instruction: the word matches no row of the opcode map (R76), or fewer than two bytes are left. -/
inductive DecodeError where
  | illegalInstruction
  | truncated
  deriving DecidableEq, Repr

/-! ### Fields of an instruction word (R71) -/

/-- category = w[15:12]. -/
def fieldCategory (w : Word) : BitVec 4 := w.extractLsb' 12 4

/-- x = w[11:8], the index of register V[x]. -/
def fieldX (w : Word) : Reg := (w.extractLsb' 8 4).toFin

/-- y = w[7:4], the index of register V[y]. -/
def fieldY (w : Word) : Reg := (w.extractLsb' 4 4).toFin

/-- n = w[3:0]. -/
def fieldN (w : Word) : BitVec 4 := w.extractLsb' 0 4

/-- nn = w[7:0]. -/
def fieldNN (w : Word) : Byte := w.extractLsb' 0 8

/-- nnn = w[11:0]. -/
def fieldNNN (w : Word) : Addr12 := w.extractLsb' 0 12

/-! ### Decode (R74) -/

/-- Category 0: three words (R74, R77). -/
def decodeCategory0 (w : Word) : Except DecodeError Instr :=
  if w = 0x0000 then .ok .nop
  else if w = 0x00E0 then .ok .cls
  else if w = 0x00EE then .ok .ret
  else .error .illegalInstruction

/-- Category 8, selected by n (R74). -/
def decodeCategory8 (x y : Reg) (n : BitVec 4) : Except DecodeError Instr :=
  if n = 0x0 then .ok (.ldReg x y)
  else if n = 0x1 then .ok (.or x y)
  else if n = 0x2 then .ok (.and x y)
  else if n = 0x3 then .ok (.xor x y)
  else if n = 0x4 then .ok (.addReg x y)
  else if n = 0x5 then .ok (.sub x y)
  else if n = 0x6 then .ok (.shr x)
  else if n = 0x7 then .ok (.subn x y)
  else if n = 0xE then .ok (.shl x)
  else .error .illegalInstruction

/-- Category E, selected by nn (R74). -/
def decodeCategoryE (x : Reg) (nn : Byte) : Except DecodeError Instr :=
  if nn = 0x9E then .ok (.skp x)
  else if nn = 0xA1 then .ok (.sknp x)
  else .error .illegalInstruction

/-- Category F, selected by nn (R74). -/
def decodeCategoryF (x : Reg) (nn : Byte) : Except DecodeError Instr :=
  if nn = 0x07 then .ok (.ldVdt x)
  else if nn = 0x0A then .ok (.ldK x)
  else if nn = 0x15 then .ok (.ldDt x)
  else if nn = 0x18 then .ok (.ldSt x)
  else if nn = 0x1E then .ok (.addIdx x)
  else if nn = 0x29 then .ok (.ldF x)
  else if nn = 0x33 then .ok (.ldB x)
  else if nn = 0x55 then .ok (.stM x)
  else if nn = 0x65 then .ok (.ldM x)
  else .error .illegalInstruction

/-- Decode(w) of R74: total, and a function of the word alone. -/
def decode (w : Word) : Except DecodeError Instr :=
  let c := fieldCategory w
  if c = 0x0 then decodeCategory0 w
  else if c = 0x1 then .ok (.jp (fieldNNN w))
  else if c = 0x2 then .ok (.call (fieldNNN w))
  else if c = 0x3 then .ok (.seImm (fieldX w) (fieldNN w))
  else if c = 0x4 then .ok (.sneImm (fieldX w) (fieldNN w))
  else if c = 0x5 then
    if fieldN w = 0 then .ok (.seReg (fieldX w) (fieldY w)) else .error .illegalInstruction
  else if c = 0x6 then .ok (.ldImm (fieldX w) (fieldNN w))
  else if c = 0x7 then .ok (.addImm (fieldX w) (fieldNN w))
  else if c = 0x8 then decodeCategory8 (fieldX w) (fieldY w) (fieldN w)
  else if c = 0x9 then
    if fieldN w = 0 then .ok (.sneReg (fieldX w) (fieldY w)) else .error .illegalInstruction
  else if c = 0xA then .ok (.ldIdx (fieldNNN w))
  else if c = 0xB then .ok (.jpV0 (fieldNNN w))
  else if c = 0xC then .ok (.rnd (fieldX w) (fieldNN w))
  else if c = 0xD then .ok (.drw (fieldX w) (fieldY w) (fieldN w).toNat)
  else if c = 0xE then decodeCategoryE (fieldX w) (fieldNN w)
  else decodeCategoryF (fieldX w) (fieldNN w)

/-- The word of two bytes, the byte at the lower address first (R53, R70). -/
def wordOfBytes (hi lo : Byte) : Word := hi ++ lo

/-- The instruction at the front of a sequence of bytes, and the bytes after it (R70). -/
def decodeBytes : List Byte → Except DecodeError (Instr × List Byte)
  | hi :: lo :: rest =>
    match decode (wordOfBytes hi lo) with
    | .ok i => .ok (i, rest)
    | .error e => .error e
  | [] | [_] => .error .truncated

/-! ### Encode (R72, R83)
One function per format of R72; `a ++ b` puts `a` in the more significant bits. -/

/-- A register index as its 4-bit field. -/
def regBits (x : Reg) : BitVec 4 := BitVec.ofFin x

/-- Format A: category, nnn. -/
def formatA (category : BitVec 4) (nnn : Addr12) : Word := category ++ nnn

/-- Format I, and format X with nn the function: category, x, nn. -/
def formatI (category : BitVec 4) (x : Reg) (nn : Byte) : Word := category ++ (regBits x ++ nn)

/-- Formats R and D: category, x, y, n. -/
def formatR (category : BitVec 4) (x y : Reg) (n : BitVec 4) : Word := category ++ (regBits x ++ (regBits y ++ n))

/-- The word of a well-formed instruction (R72, R75, R83). The y field of SHR and SHL, which they ignore, is assembled
as 0 (R81). -/
def encode : Instr → Word
  | .nop => 0x0000
  | .cls => 0x00E0
  | .ret => 0x00EE
  | .jp nnn => formatA 0x1 nnn
  | .call nnn => formatA 0x2 nnn
  | .seImm x nn => formatI 0x3 x nn
  | .sneImm x nn => formatI 0x4 x nn
  | .seReg x y => formatR 0x5 x y 0x0
  | .ldImm x nn => formatI 0x6 x nn
  | .addImm x nn => formatI 0x7 x nn
  | .ldReg x y => formatR 0x8 x y 0x0
  | .or x y => formatR 0x8 x y 0x1
  | .and x y => formatR 0x8 x y 0x2
  | .xor x y => formatR 0x8 x y 0x3
  | .addReg x y => formatR 0x8 x y 0x4
  | .sub x y => formatR 0x8 x y 0x5
  | .shr x => formatR 0x8 x 0 0x6
  | .subn x y => formatR 0x8 x y 0x7
  | .shl x => formatR 0x8 x 0 0xE
  | .sneReg x y => formatR 0x9 x y 0x0
  | .ldIdx nnn => formatA 0xA nnn
  | .jpV0 nnn => formatA 0xB nnn
  | .rnd x nn => formatI 0xC x nn
  | .drw x y n => formatR 0xD x y (BitVec.ofNat 4 n)
  | .skp x => formatI 0xE x 0x9E
  | .sknp x => formatI 0xE x 0xA1
  | .ldVdt x => formatI 0xF x 0x07
  | .ldK x => formatI 0xF x 0x0A
  | .ldDt x => formatI 0xF x 0x15
  | .ldSt x => formatI 0xF x 0x18
  | .addIdx x => formatI 0xF x 0x1E
  | .ldF x => formatI 0xF x 0x29
  | .ldB x => formatI 0xF x 0x33
  | .stM x => formatI 0xF x 0x55
  | .ldM x => formatI 0xF x 0x65

/-- The two bytes of a word as they lie in memory, the high byte at the lower address (R53, R83). -/
def wordBytes (w : Word) : List Byte := [w.extractLsb' 8 8, w.extractLsb' 0 8]

/-- The bytes of an instruction as they lie in memory. -/
def encodeBytes (i : Instr) : List Byte := wordBytes (encode i)

/-! ### The opcode map (R75) -/

/-- The mnemonic of an instruction, as spec/opcode_table.json has it (R75, R81). -/
def mnemonic : Instr → String
  | .nop => "NOP" | .cls => "CLS" | .ret => "RET" | .jp _ => "JP" | .call _ => "CALL"
  | .seImm _ _ => "SE_IMM" | .sneImm _ _ => "SNE_IMM" | .seReg _ _ => "SE_REG"
  | .ldImm _ _ => "LD_IMM" | .addImm _ _ => "ADD_IMM" | .ldReg _ _ => "LD_REG"
  | .or _ _ => "OR" | .and _ _ => "AND" | .xor _ _ => "XOR" | .addReg _ _ => "ADD_REG"
  | .sub _ _ => "SUB" | .shr _ => "SHR" | .subn _ _ => "SUBN" | .shl _ => "SHL"
  | .sneReg _ _ => "SNE_REG" | .ldIdx _ => "LD_IDX" | .jpV0 _ => "JP_V0" | .rnd _ _ => "RND"
  | .drw _ _ _ => "DRW" | .skp _ => "SKP" | .sknp _ => "SKNP" | .ldVdt _ => "LD_VDT"
  | .ldK _ => "LD_K" | .ldDt _ => "LD_DT" | .ldSt _ => "LD_ST" | .addIdx _ => "ADD_IDX"
  | .ldF _ => "LD_F" | .ldB _ => "LD_B" | .stM _ => "ST_M" | .ldM _ => "LD_M"

/-- A row of the opcode map: "a word w is that instruction exactly when w & mask = match" (R75). -/
structure OpcodeRow where
  name : String
  mask : Word
  value : Word
  deriving DecidableEq, Repr

/-- The word is of this row (R75). -/
def OpcodeRow.hit (r : OpcodeRow) (w : Word) : Bool := (w &&& r.mask) == r.value

/-- The rows of formats Z, A and I (R75). -/
def opcodeRowsWide : List OpcodeRow :=
  [⟨"NOP", 0xFFFF, 0x0000⟩, ⟨"CLS", 0xFFFF, 0x00E0⟩, ⟨"RET", 0xFFFF, 0x00EE⟩, ⟨"JP", 0xF000, 0x1000⟩,
   ⟨"CALL", 0xF000, 0x2000⟩, ⟨"SE_IMM", 0xF000, 0x3000⟩, ⟨"SNE_IMM", 0xF000, 0x4000⟩, ⟨"LD_IMM", 0xF000, 0x6000⟩,
   ⟨"ADD_IMM", 0xF000, 0x7000⟩, ⟨"LD_IDX", 0xF000, 0xA000⟩, ⟨"JP_V0", 0xF000, 0xB000⟩, ⟨"RND", 0xF000, 0xC000⟩]

/-- The rows of formats R and D (R75). -/
def opcodeRowsReg : List OpcodeRow :=
  [⟨"SE_REG", 0xF00F, 0x5000⟩, ⟨"LD_REG", 0xF00F, 0x8000⟩, ⟨"OR", 0xF00F, 0x8001⟩, ⟨"AND", 0xF00F, 0x8002⟩,
   ⟨"XOR", 0xF00F, 0x8003⟩, ⟨"ADD_REG", 0xF00F, 0x8004⟩, ⟨"SUB", 0xF00F, 0x8005⟩, ⟨"SHR", 0xF00F, 0x8006⟩,
   ⟨"SUBN", 0xF00F, 0x8007⟩, ⟨"SHL", 0xF00F, 0x800E⟩, ⟨"SNE_REG", 0xF00F, 0x9000⟩, ⟨"DRW", 0xF000, 0xD000⟩]

/-- The rows of format X (R75). -/
def opcodeRowsFunc : List OpcodeRow :=
  [⟨"SKP", 0xF0FF, 0xE09E⟩, ⟨"SKNP", 0xF0FF, 0xE0A1⟩, ⟨"LD_VDT", 0xF0FF, 0xF007⟩, ⟨"LD_K", 0xF0FF, 0xF00A⟩,
   ⟨"LD_DT", 0xF0FF, 0xF015⟩, ⟨"LD_ST", 0xF0FF, 0xF018⟩, ⟨"ADD_IDX", 0xF0FF, 0xF01E⟩, ⟨"LD_F", 0xF0FF, 0xF029⟩,
   ⟨"LD_B", 0xF0FF, 0xF033⟩, ⟨"ST_M", 0xF0FF, 0xF055⟩, ⟨"LD_M", 0xF0FF, 0xF065⟩]

/-- The 35 rows of the opcode map, grouped by format (R75). -/
def opcodeTable : List OpcodeRow := opcodeRowsWide ++ opcodeRowsReg ++ opcodeRowsFunc

/-- The names of the rows a word is of. -/
def rowsHit (w : Word) : List String := (opcodeTable.filter (fun r => r.hit w)).map (fun r => r.name)

/-! ### The table's words -/

/-- The 16-bit word that `w` is, as a row of `nbits` bits gives it: bits above `nbits` are 0. Every instruction is one word
(R70), so nothing of it lies above bit 15. -/
def tableWord (nbits w : Nat) : Word := BitVec.ofNat 16 (w % 2 ^ nbits)

/-- The instruction the decoder reads from a word numbered as spec/opcode_table.json numbers it, laid out as memory holds
it: the high byte at the lower address (R53). -/
def decodeTableWord (nbits w : Nat) : Option Instr :=
  match decodeBytes (wordBytes (tableWord nbits w)) with
  | .ok (i, _) => some i
  | .error _ => none

end Sys2Proof
end

