-- ==== Sys2Proof/Config.lean ====
section
/-! DEFINITION. The implementation parameters of spec/00_scope.md R4: the fixed sizes, and the free value `rnd`.
The third parameter, GLYPH_TABLE (R52), stands beside the memory operations in Sys2Proof/Machine/Memory.lean, where a
later repair may mend a byte of it. -/

namespace Sys2Proof

/-- MEM_SIZE: bytes of memory (R4, R50). -/
@[simp] abbrev Config.memSize : Nat := 4096

/-- PROG_BASE: the load address, the reset value of PC and the lowest address a program may store to (R4, R51, R57). -/
@[simp] abbrev Config.progBase : Nat := 0x200

/-- PROG_MAX: the longest program `load` accepts (R4, R213). -/
@[simp] abbrev Config.progMax : Nat := 3584

/-- STACK_DEPTH: the entries of the return stack (R4, R24). -/
@[simp] abbrev Config.stackDepth : Nat := 16

/-- FB_W: the columns of the framebuffer (R4, R29). -/
@[simp] abbrev Config.fbWidth : Nat := 64

/-- FB_H: the rows of the framebuffer (R4, R29). -/
@[simp] abbrev Config.fbHeight : Nat := 32

/-- `rnd`, the random input of the core (R4, R131, spec/92_eei_decisions.md D8): "a free draw, no law assumed".
`Config.rnd k` is the byte the k-th executed RND samples. It has no body: nothing can be proved of its value.
DESIGN CHOICE (safe): an input sequence indexed by a counter of State, see notes/assumptions/4.md. -/
opaque Config.rnd : Nat → Byte

end Sys2Proof
end

