-- ==== Sys2Proof/Machine/State.lean ====
section
/-! DEFINITION. All the state of the core (spec/10_state.md section 1), as plain data, and its reset values (R33, R230).
Every field but `draws` is a state element of the spec; `draws` is the model's own (notes/assumptions/4.md). -/

namespace Sys2Proof.Machine

/-- The six fault causes of R200. A step that raises one TAKES it: it answers a next state in which the latch FAULT holds
the record and nothing else has changed (R207), so no meaning and no step answers `Host.Outcome.fault`. Naming these
causes is safe: each stops the run exactly where the spec says the core stops (notes/assumptions/1.md). -/
inductive Fault where
  /-- Code 1, raised by decode in any step: the fetched word matches no row of the opcode table (R76, R201). Safe. -/
  | illegalInstruction
  /-- Code 2, raised by CALL with SP = 16 (R104, R202). Safe. -/
  | stackOverflow
  /-- Code 3, raised by RET with SP = 0 (R102, R203). Safe. -/
  | stackUnderflow
  /-- Code 4, raised by the fetch and by DRW, LD_B, ST_M, LD_M: a byte address of 4096 or more (R56, R204). Safe. -/
  | memoryBounds
  /-- Code 5, raised by LD_B and ST_M: a store to a byte address below 0x200 (R57, R205). Safe. -/
  | protectedStore
  /-- Code 6, raised by SKP and SKNP with V[x] > 15 (R170, R171, R206). Safe. -/
  | keyIndex
  deriving DecidableEq, Repr

/-- Why the model has no meaning for an instruction. No arm of exec answers one. -/
inductive Refusal where
  /-- Raised by exec's arm of an instruction that has no meaning yet, by name. Safe: nothing is claimed of it. -/
  | notModelled (mnemonic : String)
  deriving DecidableEq, Repr

/-- The fault record (R31, R200): the cause, the address of the faulting instruction, its word (0x0000 when the fetch
faulted), and the offending address or key index (0x0000 when the cause has none). -/
structure FaultRecord where
  cause : Fault
  iaddr : Word
  word  : Word
  daddr : Word
  deriving DecidableEq, Repr

/-- MEM (R30, R50): the bytes that differ from the reset contents, as (address, byte) pairs in strictly rising order of
address. The canonical form and what an unlisted address reads as are in Sys2Proof/Machine/Memory.lean. -/
abbrev Memory := List Host.Cell

/-- FB (R29): 32 rows of 64 one-bit cells, row 0 at the top. Bit cx of row cy is the cell FB[cy * 64 + cx]. -/
abbrev Framebuffer := Vector (BitVec 64) 32

/-- The state of the core (R6, spec/10_state.md section 1). -/
structure State where
  /-- V[0..15], the general registers; V[15] is VF (R20, R21). -/
  v : Vector Byte 16
  /-- I, the address register (R22). -/
  i : Word
  /-- PC, the program counter (R23). -/
  pc : Word
  /-- STACK[0..15], the return stack (R24). -/
  stack : Vector Word 16
  /-- SP, the number of return addresses on the stack, 0 to 16 (R25). -/
  sp : Fin 17
  /-- KEY, bit k = key k pressed (R26, R35). -/
  key : BitVec 16
  /-- DT, the delay timer (R27). -/
  dt : Byte
  /-- ST, the sound timer (R28). -/
  st : Byte
  /-- FB, the framebuffer (R29). -/
  fb : Framebuffer
  /-- MEM, the memory (R30). -/
  mem : Memory
  /-- FAULT, the fault latch (R31). -/
  fault : Option FaultRecord
  /-- The model's own: how many bytes of the input `rnd` have been sampled (R131; notes/assumptions/4.md). -/
  draws : Nat
  deriving DecidableEq, Repr

/-- The state after reset and after power-on (R33, R230). Memory lists nothing: an unlisted address reads as its reset
contents. `draws` is no state of the core; its 0 here is a DESIGN CHOICE (notes/assumptions/4.md). -/
def State.reset : State where
  v := Vector.replicate 16 0x00
  i := 0x0000
  pc := 0x0200
  stack := Vector.replicate 16 0x0000
  sp := 0
  key := 0x0000
  dt := 0x00
  st := 0x00
  fb := Vector.replicate 32 0
  mem := []
  fault := none
  draws := 0

end Sys2Proof.Machine
end

