-- ==== Sys2Proof/Machine/Memory.lean ====
section
/-! DEFINITION. MEM: its reset contents, reading and writing one byte, storing a run of bytes, and the canonical form of
the list that holds it (spec/20_memory.md). -/

namespace Sys2Proof.Machine

/-- GLYPH_TABLE (R4, R52): the 80 bytes reset copies to 0x000 to 0x04F, at the spec's default, the conventional font.
PRESUMED (unsafe): the spec marks the bytes "from general knowledge, not in source" (notes/assumptions/3.md). -/
def glyphTable : List Byte :=
  [0xF0, 0x90, 0x90, 0x90, 0xF0,   0x20, 0x60, 0x20, 0x20, 0x70,   0xF0, 0x10, 0xF0, 0x80, 0xF0,
   0xF0, 0x10, 0xF0, 0x10, 0xF0,   0x90, 0x90, 0xF0, 0x10, 0x10,   0xF0, 0x80, 0xF0, 0x10, 0xF0] ++
  [0xF0, 0x80, 0xF0, 0x90, 0xF0,   0xF0, 0x10, 0x20, 0x40, 0x40,   0xF0, 0x90, 0xF0, 0x90, 0xF0,
   0xF0, 0x90, 0xF0, 0x10, 0xF0,   0xF0, 0x90, 0xF0, 0x90, 0x90,   0xE0, 0x90, 0xE0, 0x90, 0xE0] ++
  [0xF0, 0x80, 0x80, 0x80, 0xF0,   0xE0, 0x90, 0x90, 0x90, 0xE0,   0xF0, 0x80, 0xF0, 0x80, 0xF0,
   0xF0, 0x80, 0xF0, 0x80, 0x80]

/-- What an unlisted address reads as: the reset contents of MEM (R30: GLYPH_TABLE at 0x000 to 0x04F, 0x00 elsewhere). -/
def Memory.unlisted (a : Nat) : Byte := glyphTable.getD a 0x00

/-- The byte listed for an address. -/
def Memory.lookup : Memory → Nat → Option Byte
  | [], _ => none
  | (k, b) :: m, a => if k = a then some b else Memory.lookup m a

/-- MEM[a]. The callers check that a is an address (R56). -/
def Memory.read (m : Memory) (a : Nat) : Byte := (Memory.lookup m a).getD (Memory.unlisted a)

/-- List a byte for an address, in its place. -/
def Memory.put : Memory → Nat → Byte → Memory
  | [], a, b => [(a, b)]
  | (k, c) :: m, a, b =>
    if a < k then (a, b) :: (k, c) :: m
    else if a = k then (a, b) :: m
    else (k, c) :: Memory.put m a b

/-- List nothing for an address. -/
def Memory.unlist (m : Memory) (a : Nat) : Memory := m.filter (fun c => c.1 ≠ a)

/-- MEM[a] <- b. A byte exists only at 0 to 4095 (R50); writing elsewhere changes nothing. Writing what an unlisted address
reads as removes the entry, so that equal memories are equal lists. -/
def Memory.write (m : Memory) (a : Nat) (b : Byte) : Memory :=
  if a < Config.memSize then
    if b = Memory.unlisted a then Memory.unlist m a else Memory.put m a b
  else m

/-- MEM[base + k] <- bytes[k], in rising order of k (R143, R144, R213). -/
def Memory.store : Memory → Nat → List Byte → Memory
  | m, _, [] => m
  | m, base, b :: bs => Memory.store (Memory.write m base b) (base + 1) bs

/-- The canonical form: strictly rising addresses, each an address of MEM, no entry equal to what the address reads as
unlisted. -/
abbrev Memory.wf (m : Memory) : Prop :=
  m.Pairwise (fun c d => c.1 < d.1) ∧ ∀ c ∈ m, c.1 < Config.memSize ∧ c.2 ≠ Memory.unlisted c.1

/-! ### Bounds and protection (R56, R57, R65) -/

/-- The check of a read or fetch of one byte: the fault it raises, with its `daddr` (R56). -/
def checkRead (a : Nat) : Option (Fault × Nat) :=
  if Config.memSize ≤ a then some (.memoryBounds, a) else none

/-- The checks of a store of one byte by a step, in their order (R56, R57, R65). -/
def checkWrite (a : Nat) : Option (Fault × Nat) :=
  if Config.memSize ≤ a then some (.memoryBounds, a)
  else if a < Config.progBase then some (.protectedStore, a)
  else none

/-- The check loop over base + k for k = 0 .. n-1, before any access: the first fault in order of k (R58). Addresses are
unbounded integers (R56). -/
def firstFault (check : Nat → Option (Fault × Nat)) (base n : Nat) : Option (Fault × Nat) :=
  (List.range n).findSome? (fun k => check (base + k))

/-- MemRead(addr, 2): two bytes, big-endian, after both checks (R53, R65). -/
def memRead2 (m : Memory) (a : Nat) : Except (Fault × Nat) Word :=
  match firstFault checkRead a 2 with
  | some f => .error f
  | none => .ok (Memory.read m a ++ Memory.read m (a + 1))

/-- MemRead(base + k, 1) for k = 0 .. n-1, the checks having been made (R58, R65, R66). -/
def Memory.readRun (m : Memory) (base n : Nat) : List Byte := (List.range n).map (fun k => Memory.read m (base + k))

end Sys2Proof.Machine
end

