-- ==== Sys2Proof/Machine/Ops.lean ====
section
/-! DEFINITION. The shared operations over the state: one accessor and one update per register, the skip, push and pop,
the framebuffer cells, and taking a fault. -/

namespace Sys2Proof.Machine

/-! ### Registers (R20 to R28) -/

/-- V[x]. -/
def State.getV (s : State) (x : Reg) : Byte := s.v[x]

/-- V[x] <- b. No register is hardwired (R20). -/
def State.setV (s : State) (x : Reg) (b : Byte) : State := { s with v := s.v.set x b }

/-- I <- w. -/
def State.setI (s : State) (w : Word) : State := { s with i := w }

/-- PC <- w. -/
def State.setPc (s : State) (w : Word) : State := { s with pc := w }

/-- DT <- b. -/
def State.setDt (s : State) (b : Byte) : State := { s with dt := b }

/-- ST <- b. -/
def State.setSt (s : State) (b : Byte) : State := { s with st := b }

/-- KEY[k] = 1: key k is pressed (R26). -/
def State.keyDown (s : State) (k : Nat) : Bool := s.key.getLsbD k

/-- KEY[k] <- p (R214). -/
def State.setKey (s : State) (k : Fin 16) (p : Bool) : State :=
  { s with key := if p then s.key ||| BitVec.twoPow 16 k else s.key &&& ~~~BitVec.twoPow 16 k }

/-- MEM <- m. -/
def State.setMem (s : State) (m : Memory) : State := { s with mem := m }

/-- FB <- f. -/
def State.setFb (s : State) (f : Framebuffer) : State := { s with fb := f }

/-- One more byte of `rnd` has been sampled (R131). -/
def State.countDraw (s : State) : State := { s with draws := s.draws + 1 }

/-! ### The program counter (R23, R100, R101) -/

/-- PC <- (PC + 2) mod 65536: the advance at fetch, before dispatch (R100). -/
def State.advancePc (s : State) : State := s.setPc (s.pc + 2)

/-- `skip`: PC <- (PC + 2) mod 65536, applied to the advanced PC, when the condition holds (R101). -/
def State.skipIf (s : State) (c : Bool) : State := if c then s.setPc (s.pc + 2) else s

/-- PC <- (PC - 2) mod 65536: back to the executing instruction's own address (R172). -/
def State.rewindPc (s : State) : State := s.setPc (s.pc - 2)

/-! ### The return stack (R24, R25) -/

/-- STACK[k], for k below the capacity. -/
def State.stackAt (s : State) (k : Fin 16) : Word := s.stack[k]

/-- STACK[SP] <- w, then SP <- SP + 1, where there is room (R104). -/
def State.push (s : State) (w : Word) (h : s.sp.val < 16) : State :=
  { s with stack := s.stack.set s.sp.val w, sp := ⟨s.sp.val + 1, Nat.succ_lt_succ h⟩ }

/-- SP <- SP - 1 (R102). The popped entry keeps its value (R25). -/
def State.dropTop (s : State) : State := { s with sp := ⟨s.sp.val - 1, Nat.lt_of_le_of_lt (Nat.sub_le _ _) s.sp.isLt⟩ }

/-- STACK[SP - 1], the top entry of a stack that is not empty (R102). -/
def State.top (s : State) (h : 0 < s.sp.val) : Word :=
  s.stack[s.sp.val - 1]'(Nat.lt_of_lt_of_le (Nat.sub_lt h Nat.one_pos) (Nat.le_of_lt_succ s.sp.isLt))

/-! ### The framebuffer (R29, R161) -/

/-- FB[k], for k = cy * 64 + cx (R29). -/
def Framebuffer.cell (f : Framebuffer) (k : Nat) : Bool := (f[k / 64]?.getD 0).getLsbD (k % 64)

/-- FB[k] <- FB[k] ^ 1 (R161). -/
def Framebuffer.toggle (f : Framebuffer) (k : Nat) : Framebuffer :=
  f.setIfInBounds (k / 64) (f[k / 64]?.getD 0 ^^^ BitVec.twoPow 64 (k % 64))

/-- All cells 0 (R160). -/
def Framebuffer.clear : Framebuffer := Vector.replicate 32 0

/-! ### Taking a fault (R207)
There is one way in and no way back: "There is no trap-return instruction and no return from a fault. Nothing is saved, so
nothing is restored" (R218). The one continuation is the host's reset, Sys2Proof/Machine/Transactions.lean. -/

/-- The code of a cause (R200). -/
def faultCode : Fault → Nat
  | .illegalInstruction => 1
  | .stackOverflow => 2
  | .stackUnderflow => 3
  | .memoryBounds => 4
  | .protectedStore => 5
  | .keyIndex => 6

/-- Fault entry (R100, R207): PC is what it was when the step began, FAULT becomes the record, and nothing else changes.
The state given is the one at the beginning of the step, but for PC, which the fetch may have advanced. -/
def takeFault (cause : Fault) (iaddr word daddr : Word) (s : State) : State :=
  { s with pc := iaddr, fault := some { cause := cause, iaddr := iaddr, word := word, daddr := daddr } }

/-- `raise` in the execute phase of the instruction i, before any write (R9, R58): the address of the instruction is PC - 2
(spec/00_scope.md section 5), and its word is that of i. DEDUCED: no instruction that can raise has a field it ignores
(R78), so its word is the one that was fetched (notes/assumptions/2.md). -/
def raise (i : Instr) (cause : Fault) (daddr : Word) (s : State) : Host.Outcome State Fault Refusal :=
  .next (takeFault cause (s.pc - 2) (encode i) daddr s)

/-- All the checks of an instruction's accesses come before its first write (R58): raise the fault found, or go on. -/
def checked (i : Instr) (found : Option (Fault × Nat)) (s : State) (go : State) : Host.Outcome State Fault Refusal :=
  match found with
  | some (cause, daddr) => raise i cause (BitVec.ofNat 16 daddr) s
  | none => .next go

end Sys2Proof.Machine
end

