-- ==== Sys2Proof/Machine/Flags.lean ====
section
/-! DEFINITION. The flag register VF = V[15] (R21): the value of each flag, and the order of the two writes of a
flag-writing instruction (R132). -/

namespace Sys2Proof.Machine

/-- VF, the flag register (R21). -/
def vf : Reg := 15

/-- A flag as the 8-bit value 0x00 or 0x01 (R21). -/
def flagByte (c : Bool) : Byte := if c then 0x01 else 0x00

/-- The carry of ADD_REG: the unbounded sum exceeds 255 (R126). -/
def carryOut (a b : Byte) : Bool := 255 < a.toNat + b.toNat

/-- The complement of the borrow of a - b: equality included (R127, R129). -/
def notBorrow (a b : Byte) : Bool := b.toNat ≤ a.toNat

/-- The bit SHR shifts out (R128). -/
def lowBit (a : Byte) : Bool := a.getLsbD 0

/-- The bit SHL shifts out (R130). -/
def highBit (a : Byte) : Bool := a.getLsbD 7

/-- V[x] <- result, then V[15] <- flag: with x = 15 the flag is what remains (R132). -/
def State.setResultAndFlag (s : State) (x : Reg) (result : Byte) (flag : Bool) : State :=
  (s.setV x result).setV vf (flagByte flag)

end Sys2Proof.Machine
end

