-- ==== Sys2Proof/Machine/Alu.lean ====
section
/-! DEFINITION. Register moves, arithmetic and logic (spec/41_alu.md). Addition and subtraction of bytes wrap modulo 256
(R133). -/

namespace Sys2Proof.Machine

/-- LD_IMM Vx, nn, 6xnn (R120). -/
def execLdImm (x : Reg) (nn : Byte) (s : State) : Host.Outcome State Fault Refusal := .next (s.setV x nn)

/-- ADD_IMM Vx, nn, 7xnn: no flag (R121). -/
def execAddImm (x : Reg) (nn : Byte) (s : State) : Host.Outcome State Fault Refusal :=
  .next (s.setV x (s.getV x + nn))

/-- LD_REG Vx, Vy, 8xy0 (R122). -/
def execLdReg (x y : Reg) (s : State) : Host.Outcome State Fault Refusal := .next (s.setV x (s.getV y))

/-- OR Vx, Vy, 8xy1: no flag (R123). -/
def execOr (x y : Reg) (s : State) : Host.Outcome State Fault Refusal := .next (s.setV x (s.getV x ||| s.getV y))

/-- AND Vx, Vy, 8xy2: no flag (R124). -/
def execAnd (x y : Reg) (s : State) : Host.Outcome State Fault Refusal := .next (s.setV x (s.getV x &&& s.getV y))

/-- XOR Vx, Vy, 8xy3: no flag (R125). -/
def execXor (x y : Reg) (s : State) : Host.Outcome State Fault Refusal := .next (s.setV x (s.getV x ^^^ s.getV y))

/-- ADD_REG Vx, Vy, 8xy4: VF = carry out (R126). -/
def execAddReg (x y : Reg) (s : State) : Host.Outcome State Fault Refusal :=
  .next (s.setResultAndFlag x (s.getV x + s.getV y) (carryOut (s.getV x) (s.getV y)))

/-- SUB Vx, Vy, 8xy5: VF = not borrow (R127). -/
def execSub (x y : Reg) (s : State) : Host.Outcome State Fault Refusal :=
  .next (s.setResultAndFlag x (s.getV x - s.getV y) (notBorrow (s.getV x) (s.getV y)))

/-- SHR Vx, 8xy6: logical, VF = the bit shifted out (R128). -/
def execShr (x : Reg) (s : State) : Host.Outcome State Fault Refusal :=
  .next (s.setResultAndFlag x (s.getV x >>> 1) (lowBit (s.getV x)))

/-- SUBN Vx, Vy, 8xy7: Vy - Vx, VF = not borrow (R129). -/
def execSubn (x y : Reg) (s : State) : Host.Outcome State Fault Refusal :=
  .next (s.setResultAndFlag x (s.getV y - s.getV x) (notBorrow (s.getV y) (s.getV x)))

/-- SHL Vx, 8xyE: VF = the bit shifted out (R130). -/
def execShl (x : Reg) (s : State) : Host.Outcome State Fault Refusal :=
  .next (s.setResultAndFlag x (s.getV x <<< 1) (highBit (s.getV x)))

/-- V[x] <- rnd & nn for a sampled byte rnd (R131). -/
def maskedDraw (x : Reg) (nn rnd : Byte) (s : State) : State := (s.setV x (rnd &&& nn)).countDraw

/-- RND Vx, nn, Cxnn: the byte of the input `rnd` is a free value (R131, notes/assumptions/4.md). -/
def execRnd (x : Reg) (nn : Byte) (s : State) : Host.Outcome State Fault Refusal :=
  .next (maskedDraw x nn (Config.rnd s.draws) s)

end Sys2Proof.Machine
end

