-- ==== Sys2Proof/Machine/Operands.lean ====
section
/-! DEFINITION. Operand forms (R73) and the values instructions compute from them: immediate addresses, the one addressing
mode "the byte at I + k", glyph addresses, decimal digits, the lowest pressed key, the cells of a sprite. -/

namespace Sys2Proof.Machine

/-- zext_16(nnn) (R73). -/
def immAddress (nnn : Addr12) : Word := nnn.setWidth 16

/-- zext_16 of a byte (R73, R141, R170). -/
def byteWord (b : Byte) : Word := b.setWidth 16

/-- I + k, an unbounded integer: the one addressing mode (R56, spec/42_index_memory.md). -/
def State.indexAddress (s : State) (k : Nat) : Nat := s.i.toNat + k

/-- V[x] * 5: the address of the glyph of digit V[x], with no masking (R142). -/
def glyphAddress (b : Byte) : Word := byteWord b * 5

/-- The hundreds, tens and ones digit of a byte (R143). -/
def decimalDigits (v : Byte) : List Byte :=
  [BitVec.ofNat 8 (v.toNat / 100), BitVec.ofNat 8 (v.toNat / 10 % 10), BitVec.ofNat 8 (v.toNat % 10)]

/-- V[0], ..., V[x], in rising order (R144). -/
def State.regRun (s : State) (x : Reg) : List Byte := s.v.toList.take (x.val + 1)

/-- V[k] <- MEM[I + k] for k = 0 .. x (R145). -/
def State.loadRegs (s : State) (x : Reg) : State :=
  { s with v := Vector.ofFn (fun k : Fin 16 => if k ≤ x then Memory.read s.mem (s.indexAddress k) else s.v[k]) }

/-- The smallest k in 0 .. 15 with KEY[k] = 1 (R172). -/
def State.lowestKey (s : State) : Option Nat := (List.range 16).find? (fun k => s.keyDown k)

/-! ### Sprites (R66, R161) -/

/-- Bit 7 - c of a sprite row: its pixel at column offset c, bit 7 the leftmost (R66). -/
def spriteBit (row : Byte) (c : Nat) : Bool := row.getLsbD (7 - c)

/-- cy * 64 + cx for the pixel at row offset r and column offset c of a sprite at (vx, vy), wrapped at both edges (R161). -/
def spriteCell (vx vy : Byte) (r c : Nat) : Nat := (vy.toNat + r) % 32 * 64 + (vx.toNat + c) % 64

/-- The cells under the set bits of one sprite row, from left to right. -/
def rowCells (vx vy : Byte) (r : Nat) (row : Byte) : List Nat :=
  ((List.range 8).filter (fun c => spriteBit row c)).map (fun c => spriteCell vx vy r c)

/-- The cells under the set bits of the n-row sprite at I drawn at (V[x], V[y]), row by row (R161). -/
def State.spriteCells (s : State) (x y : Reg) (n : Nat) : List Nat :=
  (List.range n).flatMap (fun r => rowCells (s.getV x) (s.getV y) r (Memory.read s.mem (s.indexAddress r)))

/-- One pixel of the drawing loop: the collision is noted before the cell is toggled (R161). -/
def drawCell (acc : Framebuffer × Bool) (k : Nat) : Framebuffer × Bool :=
  (acc.1.toggle k, acc.2 || acc.1.cell k)

/-- The drawing loop over the cells of a sprite, with the collision it finds (R161). -/
def drawCells (f : Framebuffer) (cells : List Nat) : Framebuffer × Bool := cells.foldl drawCell (f, false)

end Sys2Proof.Machine
end

