-- ==== Sys2Proof/Machine/Control.lean ====
section
/-! DEFINITION. NOP and the instructions that steer the program counter (spec/40_control.md). In every meaning PC is the
value after the fetch has advanced it by 2 (R100). -/

namespace Sys2Proof.Machine

/-- NOP, 0000 (R109). -/
def execNop (s : State) : Host.Outcome State Fault Refusal := .next s

/-- RET, 00EE (R102). -/
def execRet (s : State) : Host.Outcome State Fault Refusal :=
  if h : 0 < s.sp.val then .next (s.dropTop.setPc (s.top h))
  else raise .ret .stackUnderflow 0x0000 s

/-- JP nnn, 1nnn (R103). -/
def execJp (nnn : Addr12) (s : State) : Host.Outcome State Fault Refusal := .next (s.setPc (immAddress nnn))

/-- CALL nnn, 2nnn (R104). -/
def execCall (nnn : Addr12) (s : State) : Host.Outcome State Fault Refusal :=
  if h : s.sp.val < 16 then .next ((s.push s.pc h).setPc (immAddress nnn))
  else raise (.call nnn) .stackOverflow 0x0000 s

/-- SE_IMM Vx, nn, 3xnn (R105). -/
def execSeImm (x : Reg) (nn : Byte) (s : State) : Host.Outcome State Fault Refusal :=
  .next (s.skipIf (s.getV x = nn))

/-- SNE_IMM Vx, nn, 4xnn (R106). -/
def execSneImm (x : Reg) (nn : Byte) (s : State) : Host.Outcome State Fault Refusal :=
  .next (s.skipIf (s.getV x ≠ nn))

/-- SE_REG Vx, Vy, 5xy0 (R107). -/
def execSeReg (x y : Reg) (s : State) : Host.Outcome State Fault Refusal :=
  .next (s.skipIf (s.getV x = s.getV y))

/-- SNE_REG Vx, Vy, 9xy0 (R108). -/
def execSneReg (x y : Reg) (s : State) : Host.Outcome State Fault Refusal :=
  .next (s.skipIf (s.getV x ≠ s.getV y))

/-- JP_V0 nnn, Bnnn: always register 0 (R110). -/
def execJpV0 (nnn : Addr12) (s : State) : Host.Outcome State Fault Refusal :=
  .next (s.setPc (immAddress nnn + byteWord (s.getV 0)))

end Sys2Proof.Machine
end

