-- ==== Sys2Proof/Machine/Display.lean ====
section
/-! DEFINITION. The framebuffer instructions (spec/43_display.md). -/

namespace Sys2Proof.Machine

/-- CLS, 00E0 (R160). -/
def execCls (s : State) : Host.Outcome State Fault Refusal := .next (s.setFb Framebuffer.clear)

/-- The draw of a sprite whose rows have been checked: FB is XORed, then V[15] <- collision (R161). -/
def State.draw (s : State) (cells : List Nat) : State :=
  (s.setFb (drawCells s.fb cells).1).setV vf (flagByte (drawCells s.fb cells).2)

/-- DRW Vx, Vy, n, Dxyn (R161). -/
def execDrw (x y : Reg) (n : Nat) (s : State) : Host.Outcome State Fault Refusal :=
  checked (.drw x y n) (firstFault checkRead (s.indexAddress 0) n) s (s.draw (s.spriteCells x y n))

end Sys2Proof.Machine
end

