-- ==== Sys2Proof/Machine/IndexMemory.lean ====
section
/-! DEFINITION. The address register and the memory transfers through it (spec/42_index_memory.md). -/

namespace Sys2Proof.Machine

/-- LD_IDX nnn, Annn (R140). -/
def execLdIdx (nnn : Addr12) (s : State) : Host.Outcome State Fault Refusal := .next (s.setI (immAddress nnn))

/-- ADD_IDX Vx, Fx1E: modulo 65536, no flag (R141). -/
def execAddIdx (x : Reg) (s : State) : Host.Outcome State Fault Refusal :=
  .next (s.setI (s.i + byteWord (s.getV x)))

/-- LD_F Vx, Fx29 (R142). -/
def execLdF (x : Reg) (s : State) : Host.Outcome State Fault Refusal := .next (s.setI (glyphAddress (s.getV x)))

/-- LD_B Vx, Fx33: the three decimal digits of V[x] at I, I + 1, I + 2 (R143). -/
def execLdB (x : Reg) (s : State) : Host.Outcome State Fault Refusal :=
  checked (.ldB x) (firstFault checkWrite (s.indexAddress 0) 3) s
    (s.setMem (Memory.store s.mem (s.indexAddress 0) (decimalDigits (s.getV x))))

/-- ST_M Vx, Fx55: V[0] to V[x] at I to I + x (R144). -/
def execStM (x : Reg) (s : State) : Host.Outcome State Fault Refusal :=
  checked (.stM x) (firstFault checkWrite (s.indexAddress 0) (x.val + 1)) s
    (s.setMem (Memory.store s.mem (s.indexAddress 0) (s.regRun x)))

/-- LD_M Vx, Fx65: V[0] to V[x] from I to I + x (R145). -/
def execLdM (x : Reg) (s : State) : Host.Outcome State Fault Refusal :=
  checked (.ldM x) (firstFault checkRead (s.indexAddress 0) (x.val + 1)) s (s.loadRegs x)

end Sys2Proof.Machine
end

