-- ==== Sys2Proof/Machine/KeysTimers.lean ====
section
/-! DEFINITION. The key and timer instructions (spec/44_keys_timers.md). -/

namespace Sys2Proof.Machine

/-- A key index that V[x] holds, or the fault of one above 15, with its `daddr` (R170, R171, R206). -/
def checkKey (k : Byte) : Option (Fault × Nat) := if 15 < k.toNat then some (.keyIndex, k.toNat) else none

/-- SKP Vx, Ex9E (R170). -/
def execSkp (x : Reg) (s : State) : Host.Outcome State Fault Refusal :=
  checked (.skp x) (checkKey (s.getV x)) s (s.skipIf (s.keyDown (s.getV x).toNat))

/-- SKNP Vx, ExA1 (R171). -/
def execSknp (x : Reg) (s : State) : Host.Outcome State Fault Refusal :=
  checked (.sknp x) (checkKey (s.getV x)) s (s.skipIf (!s.keyDown (s.getV x).toNat))

/-- LD_VDT Vx, Fx07 (R173). -/
def execLdVdt (x : Reg) (s : State) : Host.Outcome State Fault Refusal := .next (s.setV x s.dt)

/-- LD_K Vx, Fx0A: the blocking wait, by rewinding PC while no key is down (R172). -/
def execLdK (x : Reg) (s : State) : Host.Outcome State Fault Refusal :=
  match s.lowestKey with
  | some k => .next (s.setV x (BitVec.ofNat 8 k))
  | none => .next s.rewindPc

/-- LD_DT Vx, Fx15 (R174). -/
def execLdDt (x : Reg) (s : State) : Host.Outcome State Fault Refusal := .next (s.setDt (s.getV x))

/-- LD_ST Vx, Fx18 (R175). -/
def execLdSt (x : Reg) (s : State) : Host.Outcome State Fault Refusal := .next (s.setSt (s.getV x))

end Sys2Proof.Machine
end

