-- ==== Sys2Proof/Machine/Fetch.lean ====
section
/-! DEFINITION. The first two phases of a step: fetch and decode, with the faults they raise (R100, R209). -/

namespace Sys2Proof.Machine

/-- Fetch and decode (R100), with the checks in the order of R209: a core whose FAULT is set does nothing (R208); then the
fetch, then the decode. It answers the instruction with the state in which it executes (PC advanced by 2, before
dispatch), or the state in which a step that executes nothing ends. -/
def fetchDecode (s : State) : Except State (Instr × State) :=
  match s.fault with
  | some _ => .error s
  | none =>
    match memRead2 s.mem s.pc.toNat with
    | .error (cause, daddr) => .error (takeFault cause s.pc 0x0000 (BitVec.ofNat 16 daddr) s)
    | .ok w =>
      match decode w with
      | .error _ => .error (takeFault .illegalInstruction s.pc w 0x0000 s)
      | .ok i => .ok (i, s.advancePc)

/-- Place a word where the next step fetches, with the latch FAULT clear, so that the step executes. -/
def State.placeWord (s : State) (w : Word) : State :=
  { s with mem := Memory.store s.mem s.pc.toNat (wordBytes w), fault := none }

end Sys2Proof.Machine
end

