-- ==== Sys2Proof/Machine/Step.lean ====
section
/-! DEFINITION. One `step` transaction of the core (R100, R217). -/

namespace Sys2Proof.Machine

/-- Step() of R100. It answers a next state always: a step that raises a fault takes it (R207), and a faulted core answers
the state it is in (R208). The status the host is given is the latch FAULT of the answered state (R35, `stepStatus`). -/
def step (s : State) : Host.Outcome State Fault Refusal :=
  match fetchDecode s with
  | .error t => .next t
  | .ok (i, t) => exec i t

/-- The state with the word `w` of a row of `nbits` bits at PC, where the next step fetches (R53, R100). -/
def State.withFetchWord (s : State) (nbits w : Nat) : State := s.placeWord (tableWord nbits w)

end Sys2Proof.Machine
end

