-- ==== Sys2Proof/Machine/Transactions.lean ====
section
/-! DEFINITION. The six host transactions (R211 to R217), each atomic and totally ordered with the others: what the world
outside the core can do to it, and what it is told. -/

namespace Sys2Proof.Machine

/-- A transaction of the host, with its arguments (R211). The index of `setKey` is 4 bits wide (R214). -/
inductive Transaction where
  | reset
  | load (bytes : List Byte)
  | step
  | tick
  | setKey (k : Fin 16) (pressed : Bool)
  | readFramebuffer
  deriving DecidableEq, Repr

/-- What a transaction returns (R211). -/
inductive Response where
  | nothing
  | loadOk
  | loadOverflow
  | stepOk
  | stepFault (record : FaultRecord)
  | toneStop (raised : Bool)
  | framebuffer (bits : Framebuffer)
  deriving DecidableEq, Repr

/-- `reset` (R212, R230): every state element at its reset value. The count of `rnd` bytes sampled is no state element and
goes on, so that no byte is drawn twice (notes/assumptions/4.md). -/
def resetCore (s : State) : State := { State.reset with draws := s.draws }

/-- `load(bytes)` (R213): rejected whole when too long, else a plain copy to 0x200. -/
def loadProgram (bytes : List Byte) (s : State) : State × Response :=
  if Config.progMax < bytes.length then (s, .loadOverflow)
  else (s.setMem (Memory.store s.mem Config.progBase bytes), .loadOk)

/-- The status a `step` returns: the latch FAULT after it (R35, R207, R208, R217). -/
def stepStatus (s : State) : Response :=
  match s.fault with
  | none => .stepOk
  | some r => .stepFault r

/-- `step` (R217). `step` answers a next state always, so the other two arms are never taken. -/
def stepCore (s : State) : State × Response :=
  match step s with
  | .next t => (t, stepStatus t)
  | .fault _ => (s, stepStatus s)
  | .refused _ => (s, stepStatus s)

/-- A counter that stops at zero (R27, R28, R215). -/
def countDown (b : Byte) : Byte := if b = 0 then 0 else b - 1

/-- `tick` (R215, R225): both timers count down; tone_stop is raised when ST goes from 1 to 0. -/
def tickTimers (s : State) : State × Response :=
  ((s.setDt (countDown s.dt)).setSt (countDown s.st), .toneStop (s.st = 1))

/-- `sound_on`, the derived level: ST > 0 (R225). -/
def soundOn (s : State) : Bool := s.st ≠ 0

/-- One transaction: the state after it and what it returns (R211). -/
def transact (t : Transaction) (s : State) : State × Response :=
  match t with
  | .reset => (resetCore s, .nothing)
  | .load bytes => loadProgram bytes s
  | .step => stepCore s
  | .tick => tickTimers s
  | .setKey k p => (s.setKey k p, .nothing)
  | .readFramebuffer => (s, .framebuffer s.fb)

/-- A sequence of transactions (R8: the sequence of states is determined by it). -/
def transactAll : List Transaction → State → State
  | [], s => s
  | t :: ts, s => transactAll ts (transact t s).1

end Sys2Proof.Machine
end

