-- ==== Sys2Proof/Safety.lean ====
section
/-! DEFINITION. The terms claims use: a step that executes an instruction, a safe run, the invariant of the core, the
reachable states, what an instruction may write, and the frames of the instruction shapes. -/

namespace Sys2Proof.Machine

/-- The word at PC, the byte at the lower address first (R53). -/
def fetchedWord (s : State) : Word := Memory.read s.mem s.pc.toNat ++ Memory.read s.mem (s.pc.toNat + 1)

/-- The step at `s` executes `i`: no fault is latched, both bytes at PC exist, and they decode to `i` (R100). -/
def Executes (s : State) (i : Instr) : Prop :=
  s.fault = none ∧ s.pc.toNat ≤ 4094 ∧ decode (fetchedWord s) = .ok i

/-- How many bytes of memory, from I on, the data accesses of an instruction touch (the table of R54). -/
def dataBytes : Instr → Nat
  | .drw _ _ n => n
  | .ldB _ => 3
  | .stM x | .ldM x => x.val + 1
  | .nop | .cls | .ret | .jp _ | .call _ | .seImm _ _ | .sneImm _ _ | .seReg _ _ | .ldImm _ _ => 0
  | .addImm _ _ | .ldReg _ _ | .or _ _ | .and _ _ | .xor _ _ | .addReg _ _ | .sub _ _ | .shr _ => 0
  | .subn _ _ | .shl _ | .sneReg _ _ | .ldIdx _ | .jpV0 _ | .rnd _ _ | .skp _ | .sknp _ | .ldVdt _ => 0
  | .ldK _ | .ldDt _ | .ldSt _ | .addIdx _ | .ldF _ => 0

/-- The table of fault causes (R200), one rule per row, two for MemoryBounds: the record that the step at `s` raises. -/
inductive FaultRow (s : State) : FaultRecord → Prop
  | illegalInstruction : s.pc.toNat ≤ 4094 → rowsHit (fetchedWord s) = [] →
      FaultRow s ⟨.illegalInstruction, s.pc, fetchedWord s, 0x0000⟩
  | stackOverflow (nnn : Addr12) : Executes s (.call nnn) → s.sp.val = 16 →
      FaultRow s ⟨.stackOverflow, s.pc, fetchedWord s, 0x0000⟩
  | stackUnderflow : Executes s .ret → s.sp.val = 0 → FaultRow s ⟨.stackUnderflow, s.pc, 0x00EE, 0x0000⟩
  | memoryBoundsFetch : 4095 ≤ s.pc.toNat →
      FaultRow s ⟨.memoryBounds, s.pc, 0x0000, if 4096 ≤ s.pc.toNat then s.pc else 0x1000⟩
  | memoryBoundsData (i : Instr) : Executes s i → 1 ≤ dataBytes i → 4096 < s.i.toNat + dataBytes i →
      FaultRow s ⟨.memoryBounds, s.pc, fetchedWord s, if 4096 ≤ s.i.toNat then s.i else 0x1000⟩
  | protectedStore (x : Reg) : Executes s (.ldB x) ∨ Executes s (.stM x) → s.i.toNat < 0x200 →
      FaultRow s ⟨.protectedStore, s.pc, fetchedWord s, s.i⟩
  | keyIndex (x : Reg) : Executes s (.skp x) ∨ Executes s (.sknp x) → 15 < (s.getV x).toNat →
      FaultRow s ⟨.keyIndex, s.pc, fetchedWord s, (s.getV x).setWidth 16⟩

/-- A safe run of `k` steps: no fault is latched before, during or after it (R208: a latched fault is terminal). -/
def RunsSafely : Nat → State → Prop
  | 0, s => s.fault = none
  | k + 1, s => s.fault = none ∧ ∃ t, step s = .next t ∧ RunsSafely k t

/-- PC is at a jump to itself: "PC = a, MEM[a] ++ MEM[a+1] = 0x1000 | a" (R241). -/
def AtSelfJump (s : State) : Prop :=
  s.fault = none ∧ s.pc.toNat ≤ 4094 ∧ fetchedWord s = 0x1000 ||| s.pc

/-- The invariant of the core: memory is in canonical form; the bytes below 0x200 read as reset left them (R51, R231);
PC is at most 0x10FE (R23); every entry of the stack is an address a CALL pushed, at most 0x1000, or 0 (R104). -/
structure Inv (s : State) : Prop where
  memory_wf : Memory.wf s.mem
  low_memory : ∀ a, a < 0x200 → Memory.read s.mem a = Memory.unlisted a
  pc_bound : s.pc.toNat ≤ 0x10FE
  stack_bound : ∀ k : Fin 16, (s.stackAt k).toNat ≤ 0x1000

/-- The states the host can bring the core to, by any sequence of transactions (R211, R212). -/
inductive Reachable : State → Prop
  | reset : Reachable State.reset
  | transact (t : Transaction) {s : State} : Reachable s → Reachable (Machine.transact t s).1

/-! ### What an instruction may write -/

/-- The general registers an instruction writes (the table of R20). -/
def destinations : Instr → List Reg
  | .ldImm x _ | .addImm x _ | .ldReg x _ | .or x _ | .and x _ | .xor x _ => [x]
  | .rnd x _ | .ldVdt x | .ldK x => [x]
  | .addReg x _ | .sub x _ | .subn x _ | .shr x | .shl x => [x, vf]
  | .drw _ _ _ => [vf]
  | .ldM x => (List.finRange 16).filter (fun k => k ≤ x)
  | .nop | .cls | .ret | .jp _ | .call _ | .seImm _ _ | .sneImm _ _ | .seReg _ _ | .sneReg _ _ => []
  | .ldIdx _ | .jpV0 _ | .skp _ | .sknp _ | .ldDt _ | .ldSt _ | .addIdx _ | .ldF _ | .ldB _ | .stM _ => []

/-- The six instructions that write a flag to VF (R21). -/
def writesFlag : Instr → Bool
  | .addReg _ _ | .sub _ _ | .subn _ _ | .shr _ | .shl _ | .drw _ _ _ => true
  | .nop | .cls | .ret | .jp _ | .call _ | .seImm _ _ | .sneImm _ _ | .seReg _ _ | .ldImm _ _ => false
  | .addImm _ _ | .ldReg _ _ | .or _ _ | .and _ _ | .xor _ _ | .sneReg _ _ | .ldIdx _ | .jpV0 _ => false
  | .rnd _ _ | .skp _ | .sknp _ | .ldVdt _ | .ldK _ | .ldDt _ | .ldSt _ | .addIdx _ | .ldF _ => false
  | .ldB _ | .stM _ | .ldM _ => false

/-- The instructions that write PC beyond the advance of the fetch (the list of R23). -/
def writesPc : Instr → Bool
  | .ret | .jp _ | .call _ | .jpV0 _ | .ldK _ => true
  | .seImm _ _ | .sneImm _ _ | .seReg _ _ | .sneReg _ _ | .skp _ | .sknp _ => true
  | .nop | .cls | .ldImm _ _ | .addImm _ _ | .ldReg _ _ | .or _ _ | .and _ _ | .xor _ _ | .addReg _ _ => false
  | .sub _ _ | .shr _ | .subn _ _ | .shl _ | .ldIdx _ | .rnd _ _ | .drw _ _ _ | .ldVdt _ | .ldDt _ => false
  | .ldSt _ | .addIdx _ | .ldF _ | .ldB _ | .stM _ | .ldM _ => false

/-- The instructions that can fault while they execute (the table of R200: "No instruction other than those listed can fault
during execute"). -/
def canFault : Instr → Bool
  | .ret | .call _ | .drw _ _ _ | .skp _ | .sknp _ | .ldB _ | .stM _ | .ldM _ => true
  | .nop | .cls | .jp _ | .seImm _ _ | .sneImm _ _ | .seReg _ _ | .ldImm _ _ | .addImm _ _ | .ldReg _ _ => false
  | .or _ _ | .and _ _ | .xor _ _ | .addReg _ _ | .sub _ _ | .shr _ | .subn _ _ | .shl _ | .sneReg _ _ => false
  | .ldIdx _ | .jpV0 _ | .rnd _ _ | .ldVdt _ | .ldK _ | .ldDt _ | .ldSt _ | .addIdx _ | .ldF _ => false

/-! ### Frames -/

/-- Between `s` and `t` the register V[x] has received `b`, and nothing else has changed: no other register, no timer, no
key, no cell, no byte of memory, neither PC nor FAULT. -/
def WritesOnlyReg (s t : State) (x : Reg) (b : Byte) : Prop :=
  t = { s with v := t.v } ∧ t.getV x = b ∧ ∀ r, r ≠ x → t.getV r = s.getV r

/-- Between `s` and `t` V[x] has received `b` and then V[15] the flag `f`, so that with x = 15 the flag is what remains
(R132), and nothing else has changed. -/
def WritesRegThenFlag (s t : State) (x : Reg) (b f : Byte) : Prop :=
  t = { s with v := t.v } ∧ t.getV vf = f ∧ (x ≠ vf → t.getV x = b) ∧
    ∀ r, r ≠ x → r ≠ vf → t.getV r = s.getV r

/-- `t` is `s` after fault entry in the execute phase of `i`: PC is back at the instruction's own address, FAULT is the
record, and nothing else has changed (R207). -/
def FaultsIn (i : Instr) (cause : Fault) (daddr : Word) (s t : State) : Prop :=
  t = { s with pc := s.pc - 2, fault := some ⟨cause, s.pc - 2, encode i, daddr⟩ }

/-- Every byte of memory outside the `n` bytes at `base` reads as before. -/
def MemorySameOutside (base n : Nat) (s t : State) : Prop :=
  ∀ a, (a < base ∨ base + n ≤ a) → Memory.read t.mem a = Memory.read s.mem a

/-- The cell `k` of FB lies under a set bit of the `n`-row sprite at I drawn at (V[x], V[y]) (R161). -/
def UnderSprite (s : State) (x y : Reg) (n k : Nat) : Prop :=
  ∃ r c, r < n ∧ c < 8 ∧ (Memory.read s.mem (s.i.toNat + r)).getLsbD (7 - c) = true ∧
    k = ((s.getV y).toNat + r) % 32 * 64 + ((s.getV x).toNat + c) % 64

end Sys2Proof.Machine
end

