-- ==== Sys2Proof/Certificates/Slice0/Obligations.lean ====
section
/-! DEFINITION. The statements for the provers. Those about the execute phase of an instruction speak of `exec i s`, where
PC has already been advanced past the instruction (R100); `StepRunsTheDecodedInstruction` ties them to a step. -/

open Sys2Proof Sys2Proof.Machine

/-! ### Encoding -/

/-- Decode and encode agree on every instruction that has an encoding, at every value of every operand (R83: encoding is
"the inverse of Decode"). -/
def Obligations.DecodeOfEncodeIsTheInstruction : Prop :=
  ∀ i : Instr, i.wellFormed = true → decode (encode i) = .ok i

/-- R78: the y field of SHR and SHL is ignored, and it is the only field any legal word has that is: re-encoding a decoded
word gives the word back, but for that field. 5xyn and 9xyn with n other than 0 are not instructions. -/
def Obligations.OnlyShiftsIgnoreAField : Prop :=
  (∀ (w : Word) (i : Instr), decode w = .ok i →
      ((∀ x, i ≠ .shr x) ∧ (∀ x, i ≠ .shl x) → encode i = w) ∧
      ((∃ x, i = .shr x) ∨ (∃ x, i = .shl x) → encode i = w &&& 0xFF0F)) ∧
  (∀ x y : Reg, decode (formatR 0x8 x y 0x6) = .ok (.shr x) ∧ decode (formatR 0x8 x y 0xE) = .ok (.shl x)) ∧
  (∀ (x y : Reg) (n : BitVec 4), n ≠ 0 →
      decode (formatR 0x5 x y n) = .error .illegalInstruction ∧
      decode (formatR 0x9 x y n) = .error .illegalInstruction)

/-- Every word is exactly one instruction, and then a well-formed one, or is illegal (R74: "Decode is total"). -/
def Obligations.DecodeIsTotalAndWellFormed : Prop :=
  ∀ w : Word, (∃ i, decode w = .ok i ∧ i.wellFormed = true) ∨ decode w = .error .illegalInstruction

/-- The decoder and the opcode map agree: a word that decodes is of exactly one row, that of its instruction, and an
illegal word is of none (R75, R84). -/
def Obligations.DecodeAgreesWithTheOpcodeMap : Prop :=
  ∀ w : Word, (∀ i, decode w = .ok i → rowsHit w = [mnemonic i]) ∧
    (decode w = .error .illegalInstruction → rowsHit w = [])

/-- The illegal words are exactly those of the table of R76. -/
def Obligations.IllegalWordsAreThoseOfTheTable : Prop :=
  ∀ w : Word, decode w = .error .illegalInstruction ↔
    (fieldCategory w = 0x0 ∧ w ≠ 0x0000 ∧ w ≠ 0x00E0 ∧ w ≠ 0x00EE) ∨
    (fieldCategory w = 0x5 ∧ fieldN w ≠ 0x0) ∨
    (fieldCategory w = 0x8 ∧ fieldN w ∈ [0x8, 0x9, 0xA, 0xB, 0xC, 0xD, 0xF]) ∨
    (fieldCategory w = 0x9 ∧ fieldN w ≠ 0x0) ∨
    (fieldCategory w = 0xE ∧ fieldNN w ∉ [0x9E, 0xA1]) ∨
    (fieldCategory w = 0xF ∧ fieldNN w ∉ [0x07, 0x0A, 0x15, 0x18, 0x1E, 0x29, 0x33, 0x55, 0x65])

/-- R83: the word is the match value with each field placed at its bits; in memory its high byte comes first. -/
def Obligations.EncodePlacesTheFields : Prop :=
  (encode .nop = 0x0000 ∧ encode .cls = 0x00E0 ∧ encode .ret = 0x00EE) ∧
  (∀ nnn : Addr12, encode (.jp nnn) = 0x1000 ||| nnn.setWidth 16 ∧ encode (.call nnn) = 0x2000 ||| nnn.setWidth 16 ∧
      encode (.ldIdx nnn) = 0xA000 ||| nnn.setWidth 16 ∧ encode (.jpV0 nnn) = 0xB000 ||| nnn.setWidth 16) ∧
  (∀ (x : Reg) (nn : Byte), let f := (BitVec.ofNat 16 x.val <<< 8) ||| nn.setWidth 16
      encode (.seImm x nn) = 0x3000 ||| f ∧ encode (.sneImm x nn) = 0x4000 ||| f ∧
      encode (.ldImm x nn) = 0x6000 ||| f ∧ encode (.addImm x nn) = 0x7000 ||| f ∧
      encode (.rnd x nn) = 0xC000 ||| f) ∧
  (∀ x y : Reg, let f := (BitVec.ofNat 16 x.val <<< 8) ||| (BitVec.ofNat 16 y.val <<< 4)
      encode (.seReg x y) = 0x5000 ||| f ∧ encode (.ldReg x y) = 0x8000 ||| f ∧ encode (.or x y) = 0x8001 ||| f ∧
      encode (.and x y) = 0x8002 ||| f ∧ encode (.xor x y) = 0x8003 ||| f ∧ encode (.addReg x y) = 0x8004 ||| f ∧
      encode (.sub x y) = 0x8005 ||| f ∧ encode (.subn x y) = 0x8007 ||| f ∧ encode (.sneReg x y) = 0x9000 ||| f ∧
      ∀ n : Nat, n ≤ 15 → encode (.drw x y n) = 0xD000 ||| f ||| BitVec.ofNat 16 n) ∧
  (∀ x : Reg, let f := BitVec.ofNat 16 x.val <<< 8
      encode (.shr x) = 0x8006 ||| f ∧ encode (.shl x) = 0x800E ||| f ∧ encode (.skp x) = 0xE09E ||| f ∧
      encode (.sknp x) = 0xE0A1 ||| f ∧ encode (.ldVdt x) = 0xF007 ||| f ∧ encode (.ldK x) = 0xF00A ||| f ∧
      encode (.ldDt x) = 0xF015 ||| f ∧ encode (.ldSt x) = 0xF018 ||| f ∧ encode (.addIdx x) = 0xF01E ||| f ∧
      encode (.ldF x) = 0xF029 ||| f ∧ encode (.ldB x) = 0xF033 ||| f ∧ encode (.stM x) = 0xF055 ||| f ∧
      encode (.ldM x) = 0xF065 ||| f) ∧
  (∀ i : Instr, encodeBytes i = [(encode i >>> 8).setWidth 8, (encode i).setWidth 8] ∧
      wordOfBytes ((encode i >>> 8).setWidth 8) ((encode i).setWidth 8) = encode i) ∧
  encodeBytes (.ldImm 0 0x05) = [0x60, 0x05]

/-- Twenty words written out from the patterns of R75, one or more of each of the sixteen categories, decode to the
instruction they stand for; 0xFFFF is illegal. -/
def Obligations.WrittenOutWordsDecode : Prop :=
  decode 0x0000 = .ok .nop ∧ decode 0x00E0 = .ok .cls ∧ decode 0x00EE = .ok .ret ∧ decode 0x1204 = .ok (.jp 0x204) ∧
  decode 0x2208 = .ok (.call 0x208) ∧ decode 0x3A7F = .ok (.seImm 10 0x7F) ∧ decode 0x4B80 = .ok (.sneImm 11 0x80) ∧
  decode 0x5340 = .ok (.seReg 3 4) ∧ decode 0x6005 = .ok (.ldImm 0 0x05) ∧ decode 0x71FF = .ok (.addImm 1 0xFF) ∧
  decode 0x8F14 = .ok (.addReg 15 1) ∧ decode 0x8236 = .ok (.shr 2) ∧ decode 0x9340 = .ok (.sneReg 3 4) ∧
  decode 0xA22A = .ok (.ldIdx 0x22A) ∧ decode 0xB300 = .ok (.jpV0 0x300) ∧
  decode 0xC30F = .ok (.rnd 3 0x0F) ∧ decode 0xD12F = .ok (.drw 1 2 15) ∧ decode 0xE39E = .ok (.skp 3) ∧
  decode 0xF30A = .ok (.ldK 3) ∧ decode 0xF155 = .ok (.stM 1) ∧ decode 0xFFFF = .error .illegalInstruction

/-! ### The step -/

/-- A step runs the decoded instruction: when FAULT is clear and the two bytes at PC exist and decode to an instruction,
the step is that instruction executed with PC advanced by 2 (R100). -/
def Obligations.StepRunsTheDecodedInstruction : Prop :=
  ∀ (s : State) (i : Instr), s.fault = none → s.pc.toNat ≤ 4094 →
    decode (wordOfBytes (Memory.read s.mem s.pc.toNat) (Memory.read s.mem (s.pc.toNat + 1))) = .ok i →
    step s = exec i { s with pc := s.pc + 2 }

/-- A fetch that needs a byte beyond memory faults: nothing changes but FAULT, which records PC, the word 0x0000 and the
lowest address that does not exist (R56, R100). -/
def Obligations.FetchBeyondMemoryFaults : Prop :=
  ∀ s : State, s.fault = none → 4095 ≤ s.pc.toNat →
    step s = .next { s with
      fault := some ⟨.memoryBounds, s.pc, 0x0000, if 4096 ≤ s.pc.toNat then s.pc else 0x1000⟩ }

/-- R201: a word that matches no row is a fatal condition, reported by the transaction with the word and its address; the
core does not go on. -/
def Obligations.IllegalWordFaults : Prop :=
  ∀ s : State, s.fault = none → s.pc.toNat ≤ 4094 → decode (fetchedWord s) = .error .illegalInstruction →
    let r : FaultRecord := ⟨.illegalInstruction, s.pc, fetchedWord s, 0x0000⟩
    step s = .next { s with fault := some r } ∧ transact .step s = ({ s with fault := some r }, .stepFault r)

/-- R200: a step raises a fault exactly when a row of the table of fault causes says so, and the record is that row's:
cause, address, word and `daddr`; the causes have the codes 1 to 6; nothing but a step raises one. In particular the
record's word is the one fetched. -/
def Obligations.FaultRecordsAreThoseOfTheTable : Prop :=
  [Fault.illegalInstruction, .stackOverflow, .stackUnderflow, .memoryBounds, .protectedStore, .keyIndex].map faultCode
    = [1, 2, 3, 4, 5, 6] ∧
  (∀ (s t : State) (r : FaultRecord), s.fault = none → step s = .next t → (t.fault = some r ↔ FaultRow s r)) ∧
  ∀ (tr : Transaction) (s : State), tr ≠ .step → s.fault = none → (transact tr s).1.fault = none

/-- R207: a step that raises a fault commits nothing; FAULT becomes the record of R200, whose `iaddr` is PC, and the
transaction returns it. -/
def Obligations.FaultingStepCommitsNothing : Prop :=
  ∀ s t : State, s.fault = none → step s = .next t →
    (t.fault = none ∧ transact .step s = (t, .stepOk)) ∨
    ∃ r : FaultRecord, FaultRow s r ∧ t = { s with fault := some r } ∧ r.iaddr = s.pc ∧ transact .step s = (t, .stepFault r)

/-- R208: a fault is terminal. Every step changes nothing and returns the same record; only `reset` clears FAULT; the other
transactions work as they do on a core without a fault. -/
def Obligations.FaultIsTerminalUntilReset : Prop :=
  ∀ (s : State) (r : FaultRecord), s.fault = some r →
    step s = .next s ∧ transact .step s = (s, .stepFault r) ∧
    (∀ t, t ≠ .reset → (transact t s).1.fault = some r) ∧ (transact .reset s).1.fault = none ∧
    ∀ t, t ≠ .reset → t ≠ .step →
      (transact t s).1 = { (transact t { s with fault := none }).1 with fault := some r } ∧
      (transact t s).2 = (transact t { s with fault := none }).2

/-- R242: every step answers exactly one next state, and only a jump to its own address, a JP_V0 whose sum is its own
address, and LD_K with no key down leave the state unchanged; every other step that does not fault changes PC or SP. -/
def Obligations.OnlyThreeFormsStayInPlace : Prop :=
  (∀ s : State, ∃ t, step s = .next t) ∧
  (∀ (s t : State) (i : Instr), Executes s i → step s = .next t → t.fault = none → t.pc = s.pc → t.sp = s.sp →
    (∃ nnn, i = .jp nnn ∧ nnn.toNat = s.pc.toNat) ∨
    (∃ nnn, i = .jpV0 nnn ∧ nnn.toNat + (s.getV 0).toNat = s.pc.toNat) ∨
    (∃ x, i = .ldK x ∧ s.key = 0)) ∧
  (∀ (s : State) (nnn : Addr12), Executes s (.jp nnn) → nnn.toNat = s.pc.toNat → step s = .next s) ∧
  (∀ (s : State) (nnn : Addr12), Executes s (.jpV0 nnn) → nnn.toNat + (s.getV 0).toNat = s.pc.toNat →
    step s = .next s) ∧
  (∀ (s : State) (x : Reg), Executes s (.ldK x) → s.key = 0 → step s = .next s)

/-- From a jump to itself on, every step leaves the whole state unchanged, however many are made (R241). -/
def Obligations.SelfJumpStaysForEver : Prop :=
  ∀ s : State, AtSelfJump s → ∀ k : Nat, Host.Core.run Sys2Proof.core k s = .next s

/-- R233: a `load` followed by `reset` leaves an empty memory, and stepping it executes 1792 NOPs, from 0x200 up to 0xFFE,
each of which only advances PC; the 1793rd step faults with MemoryBounds at PC = 0x1000. -/
def Obligations.SteppingEmptyMemoryRunsNopsToTheEnd : Prop :=
  ∀ (bytes : List Byte) (s : State), let s₀ := (transact .reset (transact (.load bytes) s).1).1
    (∀ a, 0x200 ≤ a → Memory.read s₀.mem a = 0x00) ∧
    (∀ k, k ≤ 1792 → Host.Core.run Sys2Proof.core k s₀ = .next { s₀ with pc := BitVec.ofNat 16 (0x200 + 2 * k) }) ∧
    (∀ k, k < 1792 → Executes { s₀ with pc := BitVec.ofNat 16 (0x200 + 2 * k) } .nop) ∧
    Host.Core.run Sys2Proof.core 1793 s₀ =
      .next { s₀ with pc := 0x1000, fault := some ⟨.memoryBounds, 0x1000, 0x0000, 0x1000⟩ }

/-- A run of steps has no fault latched at its end exactly when it has had none all along: no step clears FAULT (R208). -/
def Obligations.SafeRunsAreThoseWithoutAFault : Prop :=
  ∀ (k : Nat) (s : State),
    RunsSafely k s ↔ ∃ t : State, Host.Core.run Sys2Proof.core k s = .next t ∧ t.fault = none

/-! ### The whole machine -/

/-- The invariant holds at reset. Its canonical form of memory is the model's own (notes/assumptions/5.md). -/
def Obligations.InvariantHoldsAtReset : Prop := Inv State.reset

/-- Every step keeps the invariant: the bytes below 0x200, the bounds of PC and of the return addresses (R23, R51, R104), and
the canonical form of memory, which is the model's own (notes/assumptions/5.md). -/
def Obligations.EveryStepKeepsTheInvariant : Prop :=
  ∀ s t : State, Inv s → step s = .next t → Inv t

/-- In every state the host can bring the core to by any transactions: 0x000 to 0x04F hold GLYPH_TABLE, 0x050 to 0x1FF hold
0x00, and PC is at most 0x10FE (R23, R231). Two clauses are of the model's own form: that memory is in canonical form
(notes/assumptions/5.md), and that SP is at most 16 (R25), which State has by its type (notes/assumptions/6.md). -/
def Obligations.ReachableStatesKeepLowMemory : Prop :=
  ∀ s : State, Reachable s →
    Memory.wf s.mem ∧
    (∀ a, a < 80 → some (Memory.read s.mem a) = glyphTable[a]?) ∧
    (∀ a, 80 ≤ a → a < 0x200 → Memory.read s.mem a = 0x00) ∧
    s.pc.toNat ≤ 0x10FE ∧ s.sp.val ≤ 16

/-- The general registers an instruction may write are those of the table of R20, whether it completes or faults. -/
def Obligations.OnlyTheListedRegistersAreWritten : Prop :=
  ∀ (i : Instr) (s t : State), exec i s = .next t → ∀ r : Reg, r ∉ destinations i → t.getV r = s.getV r

/-- R164: the framebuffer changes only by CLS, DRW and reset. -/
def Obligations.FramebufferChangesOnlyByClsDrwReset : Prop :=
  ∀ (tr : Transaction) (s : State), (transact tr s).1.fb ≠ s.fb →
    tr = .reset ∨ (tr = .step ∧ (Executes s .cls ∨ ∃ x y n, Executes s (.drw x y n)))

/-- Which instructions change which state element, all twelve fields of State: V[r] only those the table of R20 gives it; I
only LD_IDX, ADD_IDX and LD_F (R22); PC, beyond the advance of the fetch, only those of R23, and a fault, which takes it
back (R207); the stack only CALL and SP only CALL and RET (R24, R25); KEY none (R26); DT only LD_DT (R27); ST only LD_ST
(R28); FB only CLS and DRW (R29); memory only LD_B and ST_M (R51); FAULT only those that the table of R200 names; the count
of random bytes only RND (the model's own field, notes/assumptions/4.md). -/
def Obligations.EachStateElementHasItsWriters : Prop :=
  ∀ (i : Instr) (s t : State), exec i s = .next t →
    (∀ r : Reg, t.getV r ≠ s.getV r → r ∈ destinations i) ∧
    (t.i ≠ s.i → (∃ nnn, i = .ldIdx nnn) ∨ (∃ x, i = .addIdx x) ∨ (∃ x, i = .ldF x)) ∧
    (t.pc ≠ s.pc → writesPc i = true ∨ (canFault i = true ∧ t.fault ≠ none)) ∧
    (t.stack ≠ s.stack → ∃ nnn, i = .call nnn) ∧
    (t.sp ≠ s.sp → (∃ nnn, i = .call nnn) ∨ i = .ret) ∧
    t.key = s.key ∧ (t.dt ≠ s.dt → ∃ x, i = .ldDt x) ∧ (t.st ≠ s.st → ∃ x, i = .ldSt x) ∧
    (t.fb ≠ s.fb → i = .cls ∨ ∃ x y n, i = .drw x y n) ∧
    (t.mem ≠ s.mem → (∃ x, i = .ldB x) ∨ (∃ x, i = .stM x)) ∧
    (t.fault ≠ s.fault → canFault i = true) ∧
    (t.draws ≠ s.draws → ∃ x nn, i = .rnd x nn)

/-- "addresses below 0x200 are never written by program execution": no instruction, in any state, changes a byte below
0x200 (R51, R57). -/
def Obligations.NoInstructionWritesBelowProgBase : Prop :=
  ∀ (i : Instr) (s t : State) (a : Nat), exec i s = .next t → a < 0x200 →
    Memory.read t.mem a = Memory.read s.mem a

/-- After a flag-writing instruction that has not faulted, VF is 0x00 or 0x01 (R21). -/
def Obligations.FlagsAreZeroOrOne : Prop :=
  ∀ (i : Instr) (s t : State), writesFlag i = true → s.fault = none → exec i s = .next t → t.fault = none →
    t.getV vf = 0x00 ∨ t.getV vf = 0x01

/-- ST is read by no instruction (R28), DT by LD_VDT alone (R27), KEY by SKP, SKNP and LD_K alone (R26), FB by DRW alone
(R29): what any other instruction does is the same whatever that element holds, and it leaves the element as it is, but for
the instructions that write it. -/
def Obligations.DevicesAreReadOnlyByTheirInstructions : Prop :=
  ∀ (i : Instr) (s t : State), exec i s = .next t →
    ((∀ x, i ≠ .ldSt x) → ∀ b, exec i { s with st := b } = .next { t with st := b }) ∧
    ((∀ x, i ≠ .ldDt x) → (∀ x, i ≠ .ldVdt x) → ∀ b, exec i { s with dt := b } = .next { t with dt := b }) ∧
    ((∀ x, i ≠ .skp x) → (∀ x, i ≠ .sknp x) → (∀ x, i ≠ .ldK x) →
      ∀ k, exec i { s with key := k } = .next { t with key := k }) ∧
    (i ≠ .cls → (∀ x y n, i ≠ .drw x y n) → ∀ f, exec i { s with fb := f } = .next { t with fb := f })

/-! ### Control transfer -/

/-- R103, R109, R110: NOP changes nothing, JP sets PC to nnn, JP_V0 sets PC to nnn + V[0] without a reduction; nothing
else changes. -/
def Obligations.JumpsSetThePc : Prop :=
  (∀ w : Word, decode w = .ok .nop ↔ w = 0x0000) ∧
  (∀ nnn : Addr12, decode (formatA 0x1 nnn) = .ok (.jp nnn) ∧
      decode (formatA 0xB nnn) = .ok (.jpV0 nnn)) ∧
  (∀ s : State, exec .nop s = .next s) ∧
  (∀ s : State, Executes s .nop → step s = .next { s with pc := s.pc + 2 }) ∧
  (∀ (nnn : Addr12) (s : State), ∃ t, exec (.jp nnn) s = .next t ∧ t = { s with pc := t.pc } ∧
      t.pc.toNat = nnn.toNat) ∧
  (∀ (nnn : Addr12) (s : State), ∃ t, exec (.jpV0 nnn) s = .next t ∧ t = { s with pc := t.pc } ∧
      t.pc.toNat = nnn.toNat + (s.getV 0).toNat ∧ t.pc.toNat ≤ 0x10FE)

/-- R104: CALL pushes the advanced PC, which in a step is the address of the CALL plus 2, and jumps; with SP = 16 it raises
StackOverflow, pushes nothing and does not jump. -/
def Obligations.CallPushesAndJumps : Prop :=
  (∀ nnn : Addr12, decode (formatA 0x2 nnn) = .ok (.call nnn)) ∧
  (∀ (nnn : Addr12) (s : State) (h : s.sp.val < 16), ∃ t, exec (.call nnn) s = .next t ∧
      t = { s with stack := t.stack, sp := t.sp, pc := t.pc } ∧ t.sp.val = s.sp.val + 1 ∧
      t.pc.toNat = nnn.toNat ∧ t.stackAt ⟨s.sp.val, h⟩ = s.pc ∧
      ∀ k : Fin 16, k.val ≠ s.sp.val → t.stackAt k = s.stackAt k) ∧
  (∀ (nnn : Addr12) (s : State) (h : s.sp.val < 16), Executes s (.call nnn) → ∃ t, step s = .next t ∧
      (t.stackAt ⟨s.sp.val, h⟩).toNat = s.pc.toNat + 2) ∧
  (∀ (nnn : Addr12) (s : State), s.sp.val = 16 → ∃ t, exec (.call nnn) s = .next t ∧
      FaultsIn (.call nnn) .stackOverflow 0x0000 s t)

/-- R102: RET pops the top entry into PC and leaves the array as it is; with SP = 0 it raises StackUnderflow and changes
neither SP nor PC. -/
def Obligations.RetPopsIntoThePc : Prop :=
  (∀ w : Word, decode w = .ok .ret ↔ w = 0x00EE) ∧
  (∀ (s : State) (k : Fin 16), s.sp.val = k.val + 1 → ∃ t, exec .ret s = .next t ∧
      t = { s with sp := t.sp, pc := t.pc } ∧ t.sp.val = k.val ∧ t.pc = s.stackAt k) ∧
  (∀ s : State, s.sp.val = 0 → ∃ t, exec .ret s = .next t ∧ FaultsIn .ret .stackUnderflow 0x0000 s t)

/-- A subroutine that leaves the return stack as it found it returns to the instruction after its CALL, at the depth of
before (R102, R104). -/
def Obligations.ReturnResumesAfterTheCall : Prop :=
  ∀ (nnn : Addr12) (s t u : State), s.sp.val < 16 → exec (.call nnn) s = .next t → u.stack = t.stack → u.sp = t.sp →
    ∃ w, exec .ret u = .next w ∧ w = { u with sp := s.sp, pc := s.pc }

/-- R105 to R108: the four register skips add 2 to the advanced PC exactly when their condition holds, and change nothing
else. -/
def Obligations.SkipsCompareRegisters : Prop :=
  (∀ (x : Reg) (nn : Byte), decode (formatI 0x3 x nn) = .ok (.seImm x nn) ∧
      decode (formatI 0x4 x nn) = .ok (.sneImm x nn)) ∧
  (∀ x y : Reg, decode (formatR 0x5 x y 0x0) = .ok (.seReg x y) ∧ decode (formatR 0x9 x y 0x0) = .ok (.sneReg x y)) ∧
  (∀ (x y : Reg) (n : BitVec 4), n ≠ 0 → decode (formatR 0x5 x y n) = .error .illegalInstruction ∧
      decode (formatR 0x9 x y n) = .error .illegalInstruction) ∧
  (∀ (x : Reg) (nn : Byte) (s : State),
      exec (.seImm x nn) s = .next { s with pc := if s.getV x = nn then s.pc + 2 else s.pc } ∧
      exec (.sneImm x nn) s = .next { s with pc := if s.getV x = nn then s.pc else s.pc + 2 }) ∧
  (∀ (x y : Reg) (s : State),
      exec (.seReg x y) s = .next { s with pc := if s.getV x = s.getV y then s.pc + 2 else s.pc } ∧
      exec (.sneReg x y) s = .next { s with pc := if s.getV x = s.getV y then s.pc else s.pc + 2 })

/-! ### Moves, arithmetic and logic -/

/-- R120, R122, R173: LD_IMM, LD_REG and LD_VDT write one register, and nothing else changes. -/
def Obligations.MovesWriteOneRegister : Prop :=
  (∀ (x : Reg) (nn : Byte), decode (formatI 0x6 x nn) = .ok (.ldImm x nn)) ∧
  (∀ x y : Reg, decode (formatR 0x8 x y 0x0) = .ok (.ldReg x y)) ∧
  (∀ x : Reg, decode (formatI 0xF x 0x07) = .ok (.ldVdt x)) ∧
  (∀ (x : Reg) (nn : Byte) (s : State), ∃ t, exec (.ldImm x nn) s = .next t ∧ WritesOnlyReg s t x nn) ∧
  (∀ (x y : Reg) (s : State), ∃ t, exec (.ldReg x y) s = .next t ∧ WritesOnlyReg s t x (s.getV y)) ∧
  (∀ (x : Reg) (s : State), ∃ t, exec (.ldVdt x) s = .next t ∧ WritesOnlyReg s t x s.dt)

/-- R121: ADD_IMM writes the sum modulo 256 and no flag: with x other than 15, VF is as before whatever the sum. -/
def Obligations.AddImmediateWraps : Prop :=
  (∀ (x : Reg) (nn : Byte), decode (formatI 0x7 x nn) = .ok (.addImm x nn)) ∧
  ∀ (x : Reg) (nn : Byte) (s : State), ∃ t, exec (.addImm x nn) s = .next t ∧
    WritesOnlyReg s t x (BitVec.ofNat 8 (((s.getV x).toNat + nn.toNat) % 256))

/-- R123, R124, R125: OR, AND and XOR write the bitwise result and no flag. -/
def Obligations.LogicWritesBitwiseResults : Prop :=
  ∀ x y : Reg,
    decode (formatR 0x8 x y 0x1) = .ok (.or x y) ∧ decode (formatR 0x8 x y 0x2) = .ok (.and x y) ∧
    decode (formatR 0x8 x y 0x3) = .ok (.xor x y) ∧
    ∀ s : State,
      (∃ t b, exec (.or x y) s = .next t ∧ WritesOnlyReg s t x b ∧
        ∀ k, b.getLsbD k = ((s.getV x).getLsbD k || (s.getV y).getLsbD k)) ∧
      (∃ t b, exec (.and x y) s = .next t ∧ WritesOnlyReg s t x b ∧
        ∀ k, b.getLsbD k = ((s.getV x).getLsbD k && (s.getV y).getLsbD k)) ∧
      (∃ t b, exec (.xor x y) s = .next t ∧ WritesOnlyReg s t x b ∧
        ∀ k, b.getLsbD k = ((s.getV x).getLsbD k ^^ (s.getV y).getLsbD k))

/-- R126: ADD_REG writes the sum modulo 256, then VF = 1 exactly when the unbounded sum exceeds 255; with x = 15 VF ends
as the carry, and with y = 15 the old VF is the operand (R132). -/
def Obligations.AddRegisterReportsTheCarry : Prop :=
  ∀ x y : Reg, decode (formatR 0x8 x y 0x4) = .ok (.addReg x y) ∧
    ∀ s : State, let sum := (s.getV x).toNat + (s.getV y).toNat
      ∃ t, exec (.addReg x y) s = .next t ∧
        WritesRegThenFlag s t x (BitVec.ofNat 8 (sum % 256)) (if 255 < sum then 0x01 else 0x00)

/-- R127, R129: SUB writes V[x] - V[y] and SUBN V[y] - V[x], modulo 256, then VF = 0 exactly when that subtraction borrows;
with x = 15 VF ends as the flag. -/
def Obligations.SubtractReportsNotBorrow : Prop :=
  ∀ x y : Reg, decode (formatR 0x8 x y 0x5) = .ok (.sub x y) ∧ decode (formatR 0x8 x y 0x7) = .ok (.subn x y) ∧
    ∀ s : State, let a := (s.getV x).toNat; let b := (s.getV y).toNat
      (∃ t, exec (.sub x y) s = .next t ∧
        WritesRegThenFlag s t x (BitVec.ofNat 8 (if a < b then a + 256 - b else a - b))
          (if a < b then 0x00 else 0x01)) ∧
      (∃ t, exec (.subn x y) s = .next t ∧
        WritesRegThenFlag s t x (BitVec.ofNat 8 (if b < a then b + 256 - a else b - a))
          (if b < a then 0x00 else 0x01))

/-- R128, R130: SHR halves V[x] and SHL doubles it modulo 256, VF is the bit shifted out, and y is ignored; with x = 15 VF
ends as the flag. -/
def Obligations.ShiftsReportTheLostBit : Prop :=
  (∀ x y : Reg, decode (formatR 0x8 x y 0x6) = .ok (.shr x) ∧ decode (formatR 0x8 x y 0xE) = .ok (.shl x)) ∧
  ∀ (x : Reg) (s : State), let a := (s.getV x).toNat
    (∃ t, exec (.shr x) s = .next t ∧
      WritesRegThenFlag s t x (BitVec.ofNat 8 (a / 2)) (BitVec.ofNat 8 (a % 2))) ∧
    (∃ t, exec (.shl x) s = .next t ∧
      WritesRegThenFlag s t x (BitVec.ofNat 8 (a * 2 % 256)) (BitVec.ofNat 8 (a / 128)))

/-- RND writes a sampled byte of the input `rnd` masked by nn: every bit that is 0 in nn is 0 in the result, nn = 0x00
gives 0x00, and no flag is written (R131). That the byte is the one numbered `draws` of an input sequence, and that the
number goes up by one, is the model's own (notes/assumptions/4.md); the byte itself is a free value. -/
def Obligations.RandomByteIsMasked : Prop :=
  (∀ (x : Reg) (nn : Byte), decode (formatI 0xC x nn) = .ok (.rnd x nn)) ∧
  ∀ (x : Reg) (s : State), ∃ b : Byte, b = Config.rnd s.draws ∧
    ∀ nn : Byte, ∃ t, exec (.rnd x nn) s = .next t ∧ t = { s with v := t.v, draws := s.draws + 1 } ∧
      (∀ k, (t.getV x).getLsbD k = (b.getLsbD k && nn.getLsbD k)) ∧
      ∀ r, r ≠ x → t.getV r = s.getV r

/-! ### The address register and memory -/

/-- R140, R141, R142: LD_IDX sets I to nnn, ADD_IDX adds V[x] to I modulo 65536, LD_F sets I to V[x] * 5; no flag is
written and nothing else changes. -/
def Obligations.AddressRegisterArithmetic : Prop :=
  (∀ nnn : Addr12, decode (formatA 0xA nnn) = .ok (.ldIdx nnn)) ∧
  (∀ x : Reg, decode (formatI 0xF x 0x1E) = .ok (.addIdx x) ∧ decode (formatI 0xF x 0x29) = .ok (.ldF x)) ∧
  (∀ (nnn : Addr12) (s : State), ∃ t, exec (.ldIdx nnn) s = .next t ∧ t = { s with i := t.i } ∧
      t.i.toNat = nnn.toNat) ∧
  (∀ (x : Reg) (s : State), ∃ t, exec (.addIdx x) s = .next t ∧ t = { s with i := t.i } ∧
      t.i.toNat = (s.i.toNat + (s.getV x).toNat) % 65536) ∧
  (∀ (x : Reg) (s : State), ∃ t, exec (.ldF x) s = .next t ∧ t = { s with i := t.i } ∧
      t.i.toNat = (s.getV x).toNat * 5)

/-- R143: LD_B stores the hundreds, tens and ones digit of V[x] at I, I + 1, I + 2; I is not changed, nor any other byte or
register. It faults, and writes nothing, when one of the three addresses is beyond memory or below 0x200. -/
def Obligations.DecimalDigitsAreStored : Prop :=
  (∀ x : Reg, decode (formatI 0xF x 0x33) = .ok (.ldB x)) ∧
  (∀ (x : Reg) (s : State), 0x200 ≤ s.indexAddress 0 → s.indexAddress 2 < 4096 →
    ∃ t, exec (.ldB x) s = .next t ∧ t = { s with mem := t.mem } ∧
      (Memory.read t.mem (s.indexAddress 0)).toNat = (s.getV x).toNat / 100 ∧
      (Memory.read t.mem (s.indexAddress 1)).toNat = (s.getV x).toNat / 10 % 10 ∧
      (Memory.read t.mem (s.indexAddress 2)).toNat = (s.getV x).toNat % 10 ∧
      MemorySameOutside (s.indexAddress 0) 3 s t) ∧
  (∀ (x : Reg) (s : State), 4096 ≤ s.indexAddress 2 → ∃ t, exec (.ldB x) s = .next t ∧
      FaultsIn (.ldB x) .memoryBounds (if 4096 ≤ s.indexAddress 0 then s.i else 0x1000) s t) ∧
  (∀ (x : Reg) (s : State), s.indexAddress 0 < 0x200 → ∃ t, exec (.ldB x) s = .next t ∧
      FaultsIn (.ldB x) .protectedStore s.i s t)

/-- R144: ST_M stores V[0] to V[x], inclusive, at I to I + x; I is not changed, nor any other byte or register. It faults,
and writes nothing, when one of these addresses is beyond memory or below 0x200. -/
def Obligations.RegistersAreStored : Prop :=
  (∀ x : Reg, decode (formatI 0xF x 0x55) = .ok (.stM x)) ∧
  (∀ (x : Reg) (s : State), 0x200 ≤ s.indexAddress 0 → s.indexAddress x.val < 4096 →
    ∃ t, exec (.stM x) s = .next t ∧ t = { s with mem := t.mem } ∧
      (∀ k : Fin 16, k ≤ x → Memory.read t.mem (s.indexAddress k.val) = s.getV k) ∧
      MemorySameOutside (s.indexAddress 0) (x.val + 1) s t) ∧
  (∀ (x : Reg) (s : State), 4096 ≤ s.indexAddress x.val → ∃ t, exec (.stM x) s = .next t ∧
      FaultsIn (.stM x) .memoryBounds (if 4096 ≤ s.indexAddress 0 then s.i else 0x1000) s t) ∧
  (∀ (x : Reg) (s : State), s.indexAddress 0 < 0x200 → ∃ t, exec (.stM x) s = .next t ∧
      FaultsIn (.stM x) .protectedStore s.i s t)

/-- R145: LD_M loads I to I + x into V[0] to V[x], inclusive, from anywhere in memory, and faults, writing no register, when
I + x is beyond it; I is not changed. -/
def Obligations.RegistersAreLoaded : Prop :=
  (∀ x : Reg, decode (formatI 0xF x 0x65) = .ok (.ldM x)) ∧
  (∀ (x : Reg) (s : State), s.i.toNat + x.val < 4096 →
    ∃ t, exec (.ldM x) s = .next t ∧ t = { s with v := t.v } ∧
      (∀ k : Fin 16, k ≤ x → t.getV k = Memory.read s.mem (s.i.toNat + k.val)) ∧
      (∀ k : Fin 16, x < k → t.getV k = s.getV k)) ∧
  (∀ (x : Reg) (s : State), 4096 ≤ s.i.toNat + x.val →
    ∃ t, exec (.ldM x) s = .next t ∧
      FaultsIn (.ldM x) .memoryBounds (if 4096 ≤ s.i.toNat then s.i else 0x1000) s t)

/-- A word that ST_M stores is the word the next fetch of its address returns, with nothing in between (R53, R62). -/
def Obligations.FetchSeesTheStoredWord : Prop :=
  ∀ (x : Reg) (s t : State) (k : Nat) (hk : k + 1 ≤ x.val), s.fault = none → 0x200 ≤ s.i.toNat →
    s.i.toNat + x.val < 4096 → exec (.stM x) s = .next t →
    ∀ pc : Word, pc.toNat = s.i.toNat + k →
      fetchedWord { t with pc := pc } =
        s.getV ⟨k, Nat.lt_trans (Nat.lt_of_succ_le hk) x.isLt⟩ ++ s.getV ⟨k + 1, Nat.lt_of_le_of_lt hk x.isLt⟩

/-! ### Display -/

/-- R160: CLS clears every cell and changes nothing else. -/
def Obligations.ClearTurnsEveryCellOff : Prop :=
  (∀ w : Word, decode w = .ok .cls ↔ w = 0x00E0) ∧
  ∀ s : State, ∃ t, exec .cls s = .next t ∧ t = { s with fb := t.fb } ∧ ∀ k, k < 2048 → t.fb.cell k = false

/-- R161: DRW toggles exactly the cells under set bits of the sprite, wrapped at the edges, and sets VF to 1 exactly when
one of them was on; nothing else changes. It faults, drawing nothing and writing no register, when a row of the sprite is
beyond memory; with n = 0 it cannot. -/
def Obligations.DrawTogglesTheCellsUnderTheSprite : Prop :=
  (∀ (x y : Reg) (n : BitVec 4), decode (formatR 0xD x y n) = .ok (.drw x y n.toNat)) ∧
  (∀ (x y : Reg) (n : Nat) (s : State), n ≤ 15 → (n = 0 ∨ s.i.toNat + n ≤ 4096) →
    ∃ t, exec (.drw x y n) s = .next t ∧ t = { s with v := t.v, fb := t.fb } ∧
      (∀ k, k < 2048 → UnderSprite s x y n k → t.fb.cell k = !s.fb.cell k) ∧
      (∀ k, k < 2048 → ¬ UnderSprite s x y n k → t.fb.cell k = s.fb.cell k) ∧
      ((∃ k, k < 2048 ∧ UnderSprite s x y n k ∧ s.fb.cell k = true) → t.getV vf = 0x01) ∧
      ((∀ k, k < 2048 → UnderSprite s x y n k → s.fb.cell k = false) → t.getV vf = 0x00) ∧
      ∀ r, r ≠ vf → t.getV r = s.getV r) ∧
  (∀ (x y : Reg) (n : Nat) (s : State), 1 ≤ n → n ≤ 15 → 4096 ≤ s.i.toNat + (n - 1) →
    ∃ t, exec (.drw x y n) s = .next t ∧
      FaultsIn (.drw x y n) .memoryBounds (if 4096 ≤ s.i.toNat then s.i else 0x1000) s t)

/-- R162: drawing the same sprite twice in succession at the same place (the second draw finds I, V[x], V[y], the memory and
the framebuffer as the first left them or found them) restores the framebuffer. VF after the second draw is 1 exactly when
the first turned a pixel on; where every set bit fell on a pixel that was on, VF is 1 and then 0; with no set bit, 0
twice. -/
def Obligations.DrawingTwiceRestoresTheFramebuffer : Prop :=
  ∀ (x y : Reg) (n : Nat) (s t s' u : State), n ≤ 15 → (n = 0 ∨ s.i.toNat + n ≤ 4096) →
    exec (.drw x y n) s = .next t →
    s'.fb = t.fb → s'.mem = s.mem → s'.i = s.i → s'.getV x = s.getV x → s'.getV y = s.getV y →
    exec (.drw x y n) s' = .next u →
    u.fb = s.fb ∧
    ((∃ k, k < 2048 ∧ s.fb.cell k = false ∧ t.fb.cell k = true) → u.getV vf = 0x01) ∧
    ((∀ k, k < 2048 → s.fb.cell k = false → t.fb.cell k = false) → u.getV vf = 0x00) ∧
    ((∃ k, k < 2048 ∧ UnderSprite s x y n k) → (∀ k, k < 2048 → UnderSprite s x y n k → s.fb.cell k = true) →
      t.getV vf = 0x01 ∧ u.getV vf = 0x00) ∧
    ((∀ k, ¬ UnderSprite s x y n k) → t.getV vf = 0x00 ∧ u.getV vf = 0x00)

/-- R163: a sprite drawn with its origin at (63, 31) wraps: column offset c lands in column 63 for c = 0 and in column c - 1
after it, row offset r in row 31 for r = 0 and in row r - 1 after it. -/
def Obligations.DrawWrapsAtTheCorner : Prop :=
  ∀ (x y : Reg) (n : Nat) (s : State), s.getV x = 63 → s.getV y = 31 → n ≤ 15 → (n = 0 ∨ s.i.toNat + n ≤ 4096) →
    ∃ t, exec (.drw x y n) s = .next t ∧
      ∀ r c, r < n → c < 8 → (Memory.read s.mem (s.i.toNat + r)).getLsbD (7 - c) = true →
        let row := if r = 0 then 31 else r - 1
        let col := if c = 0 then 63 else c - 1
        t.fb.cell (row * 64 + col) = !s.fb.cell (row * 64 + col)

/-! ### Keys and timers -/

/-- R170, R171: SKP and SKNP skip by the level of the key that V[x] names, and raise KeyIndex when V[x] is above 15; they
change no key. -/
def Obligations.KeySkipsTestTheNamedKey : Prop :=
  ∀ x : Reg, decode (formatI 0xE x 0x9E) = .ok (.skp x) ∧ decode (formatI 0xE x 0xA1) = .ok (.sknp x) ∧
    ∀ s : State, let k := (s.getV x).toNat
      (k ≤ 15 →
        exec (.skp x) s = .next { s with pc := if s.key.getLsbD k = true then s.pc + 2 else s.pc } ∧
        exec (.sknp x) s = .next { s with pc := if s.key.getLsbD k = true then s.pc else s.pc + 2 }) ∧
      (15 < k →
        (∃ t, exec (.skp x) s = .next t ∧ FaultsIn (.skp x) .keyIndex (BitVec.ofNat 16 k) s t) ∧
        (∃ t, exec (.sknp x) s = .next t ∧ FaultsIn (.sknp x) .keyIndex (BitVec.ofNat 16 k) s t))

/-- R172: LD_K with a key down loads the lowest pressed index and leaves KEY as it is; with none down it rewinds PC, so
that the whole step has no net effect. -/
def Obligations.KeyWaitTakesTheLowestKey : Prop :=
  (∀ x : Reg, decode (formatI 0xF x 0x0A) = .ok (.ldK x)) ∧
  (∀ (x : Reg) (s : State) (k : Fin 16), s.key.getLsbD k = true → (∀ j, j < k.val → s.key.getLsbD j = false) →
      ∃ t, exec (.ldK x) s = .next t ∧ WritesOnlyReg s t x (BitVec.ofNat 8 k.val)) ∧
  (∀ (x : Reg) (s : State), (∀ k : Fin 16, s.key.getLsbD k = false) →
      exec (.ldK x) s = .next { s with pc := s.pc - 2 }) ∧
  (∀ (x : Reg) (s : State), Executes s (.ldK x) → (∀ k : Fin 16, s.key.getLsbD k = false) → step s = .next s)

/-- R174, R175: LD_DT and LD_ST write their timer from V[x] and change nothing else. -/
def Obligations.TimerWritesReplaceTheCount : Prop :=
  ∀ x : Reg, decode (formatI 0xF x 0x15) = .ok (.ldDt x) ∧ decode (formatI 0xF x 0x18) = .ok (.ldSt x) ∧
    ∀ s : State, exec (.ldDt x) s = .next { s with dt := s.getV x } ∧
      exec (.ldSt x) s = .next { s with st := s.getV x }

/-! ### Host transactions -/

/-- R33: after power-on, and after `reset` in any state, every state element has its reset value. (The count of random
bytes sampled is no state element: notes/assumptions/4.md.) -/
def Obligations.ResetGivesTheResetValues : Prop :=
  ∀ s t : State, (s = State.reset ∨ s = (transact .reset t).1) →
    (∀ r, s.getV r = 0x00) ∧ s.i = 0x0000 ∧ s.pc = 0x0200 ∧ (∀ k, s.stackAt k = 0x0000) ∧ s.sp.val = 0 ∧
    (∀ k : Fin 16, s.keyDown k = false) ∧ s.dt = 0x00 ∧ s.st = 0x00 ∧ (∀ k, k < 2048 → s.fb.cell k = false) ∧
    (∀ a, a < 80 → some (Memory.read s.mem a) = glyphTable[a]?) ∧
    (∀ a, 80 ≤ a → a < 4096 → Memory.read s.mem a = 0x00) ∧ s.fault = none

/-- R213: `load` copies the bytes to 0x200 and changes nothing else, FAULT included; a program longer than 3584 bytes is
rejected whole. -/
def Obligations.LoadCopiesOrRejects : Prop :=
  ∀ (bytes : List Byte) (s : State),
    (3584 < bytes.length → transact (.load bytes) s = (s, .loadOverflow)) ∧
    (bytes.length ≤ 3584 → ∃ t, transact (.load bytes) s = (t, .loadOk) ∧ t = { s with mem := t.mem } ∧
      (∀ (k : Nat) (h : k < bytes.length), Memory.read t.mem (0x200 + k) = bytes[k]) ∧
      MemorySameOutside 0x200 bytes.length s t)

/-- R215, R225: `tick` takes 1 from each timer that is not zero, leaves one that is at zero there, and raises tone_stop
exactly when it takes ST from 1 to 0; no other transaction raises it, and `sound_on` is ST > 0. -/
def Obligations.TickCountsBothTimersDown : Prop :=
  (∀ s : State, ∃ t, transact .tick s = (t, .toneStop (decide (s.st.toNat = 1))) ∧
      t = { s with dt := t.dt, st := t.st } ∧ t.dt.toNat = s.dt.toNat - 1 ∧ t.st.toNat = s.st.toNat - 1) ∧
  (∀ (tr : Transaction) (s : State), (transact tr s).2 = .toneStop true →
      tr = .tick ∧ s.st = 0x01 ∧ (transact tr s).1.st = 0x00) ∧
  (∀ s : State, soundOn s = true ↔ 0 < s.st.toNat)

/-- R214: `set_key(k, p)` sets the level of key k and changes nothing else. -/
def Obligations.SetKeySetsOneKey : Prop :=
  ∀ (k : Fin 16) (p : Bool) (s : State), ∃ t, transact (.setKey k p) s = (t, .nothing) ∧ t = { s with key := t.key } ∧
    t.keyDown k = p ∧ ∀ j : Fin 16, j ≠ k → t.keyDown j = s.keyDown j

/-- The framebuffer read returns the bits of FB, FB[cy * 64 + cx] for column cx and row cy, and changes nothing (R216). -/
def Obligations.FramebufferReadChangesNothing : Prop :=
  ∀ s : State, ∃ f : Framebuffer, transact .readFramebuffer s = (s, .framebuffer f) ∧
    ∀ (cy cx : Nat) (hy : cy < 32), cx < 64 → f[cy].getLsbD cx = s.fb.cell (cy * 64 + cx)

/-- Every transaction of the host, from every state that meets the invariant, leaves a state that meets it: the bytes below
0x200, the bounds of PC and of the return addresses (R23, R51, R104, R213), and the canonical form of memory, which is the
model's own (notes/assumptions/5.md). -/
def Obligations.EveryTransactionKeepsTheInvariant : Prop :=
  ∀ (tr : Transaction) (s : State), Inv s → Inv (transact tr s).1
end

