-- ==== Sys2Proof/Laws/Decode.lean ====
section
/-! SUPPORT. The bits of the words that the formats build, and the fields of those words (R71, R72). -/

namespace Sys2Proof

/-! ### The bits of a format -/

theorem formatA_bit (c : BitVec 4) (a : Addr12) (i : Nat) :
    (formatA c a).getLsbD i = if i < 12 then a.getLsbD i else c.getLsbD (i - 12) := by
  show (c ++ a : BitVec (4 + 12)).getLsbD i = _
  rw [BitVec.getLsbD_append]

theorem formatI_bit (c : BitVec 4) (x : Reg) (nn : Byte) (i : Nat) :
    (formatI c x nn).getLsbD i =
      if i < 8 then nn.getLsbD i else if i < 12 then (regBits x).getLsbD (i - 8) else c.getLsbD (i - 12) := by
  show (c ++ (regBits x ++ nn : BitVec (4 + 8)) : BitVec (4 + (4 + 8))).getLsbD i = _
  rw [BitVec.getLsbD_append, BitVec.getLsbD_append]
  by_cases h : i < 8
  · simp [h, show i < 12 by omega]
  · simp [h]

theorem formatR_bit (c : BitVec 4) (x y : Reg) (n : BitVec 4) (i : Nat) :
    (formatR c x y n).getLsbD i =
      if i < 4 then n.getLsbD i else if i < 8 then (regBits y).getLsbD (i - 4)
      else if i < 12 then (regBits x).getLsbD (i - 8) else c.getLsbD (i - 12) := by
  show (c ++ (regBits x ++ (regBits y ++ n : BitVec (4 + 4)) : BitVec (4 + (4 + 4))) :
    BitVec (4 + (4 + (4 + 4)))).getLsbD i = _
  rw [BitVec.getLsbD_append, BitVec.getLsbD_append, BitVec.getLsbD_append]
  by_cases h : i < 4
  · simp [h, show i < 12 by omega, show i < 8 by omega]
  · by_cases h' : i < 8
    · simp [h, h', show i < 12 by omega]
    · simp [h, h']

/-! ### The fields of a format -/

@[simp] theorem category_formatA (c : BitVec 4) (a : Addr12) : fieldCategory (formatA c a) = c := by
  apply BitVec.eq_of_getLsbD_eq; intro i hi
  simp only [fieldCategory, BitVec.getLsbD_extractLsb', formatA_bit]
  simp [hi]

@[simp] theorem nnn_formatA (c : BitVec 4) (a : Addr12) : fieldNNN (formatA c a) = a := by
  apply BitVec.eq_of_getLsbD_eq; intro i hi
  simp only [fieldNNN, BitVec.getLsbD_extractLsb', formatA_bit]
  simp [hi]

@[simp] theorem category_formatI (c : BitVec 4) (x : Reg) (nn : Byte) : fieldCategory (formatI c x nn) = c := by
  apply BitVec.eq_of_getLsbD_eq; intro i hi
  simp only [fieldCategory, BitVec.getLsbD_extractLsb', formatI_bit]
  simp [hi, show ¬ 12 + i < 8 by omega]

@[simp] theorem x_formatI (c : BitVec 4) (x : Reg) (nn : Byte) : fieldX (formatI c x nn) = x := by
  have : (formatI c x nn).extractLsb' 8 4 = BitVec.ofFin x := by
    apply BitVec.eq_of_getLsbD_eq; intro i hi
    simp only [BitVec.getLsbD_extractLsb', formatI_bit, regBits]
    simp [hi, show 8 + i < 12 by omega]
  simp [fieldX, this]

@[simp] theorem nn_formatI (c : BitVec 4) (x : Reg) (nn : Byte) : fieldNN (formatI c x nn) = nn := by
  apply BitVec.eq_of_getLsbD_eq; intro i hi
  simp only [fieldNN, BitVec.getLsbD_extractLsb', formatI_bit]
  simp [hi]

@[simp] theorem category_formatR (c : BitVec 4) (x y : Reg) (n : BitVec 4) : fieldCategory (formatR c x y n) = c := by
  apply BitVec.eq_of_getLsbD_eq; intro i hi
  simp only [fieldCategory, BitVec.getLsbD_extractLsb', formatR_bit]
  simp [hi, show ¬ 12 + i < 4 by omega, show ¬ 12 + i < 8 by omega]

@[simp] theorem x_formatR (c : BitVec 4) (x y : Reg) (n : BitVec 4) : fieldX (formatR c x y n) = x := by
  have : (formatR c x y n).extractLsb' 8 4 = BitVec.ofFin x := by
    apply BitVec.eq_of_getLsbD_eq; intro i hi
    simp only [BitVec.getLsbD_extractLsb', formatR_bit, regBits]
    simp [hi, show 8 + i < 12 by omega, show ¬ 8 + i < 4 by omega]
  simp [fieldX, this]

@[simp] theorem y_formatR (c : BitVec 4) (x y : Reg) (n : BitVec 4) : fieldY (formatR c x y n) = y := by
  have : (formatR c x y n).extractLsb' 4 4 = BitVec.ofFin y := by
    apply BitVec.eq_of_getLsbD_eq; intro i hi
    simp only [BitVec.getLsbD_extractLsb', formatR_bit, regBits]
    simp [hi, show 4 + i < 8 by omega]
  simp [fieldY, this]

@[simp] theorem n_formatR (c : BitVec 4) (x y : Reg) (n : BitVec 4) : fieldN (formatR c x y n) = n := by
  apply BitVec.eq_of_getLsbD_eq; intro i hi
  simp only [fieldN, BitVec.getLsbD_extractLsb', formatR_bit]
  simp [hi]

/-! ### A word is what its fields build -/

theorem formatA_fields (w : Word) : formatA (fieldCategory w) (fieldNNN w) = w := by
  apply BitVec.eq_of_getLsbD_eq; intro i hi
  simp only [formatA_bit, fieldCategory, fieldNNN, BitVec.getLsbD_extractLsb']
  by_cases h : i < 12
  · simp [h]
  · simp [h, show i - 12 < 4 by omega, show 12 + (i - 12) = i by omega]

theorem formatI_fields (w : Word) : formatI (fieldCategory w) (fieldX w) (fieldNN w) = w := by
  apply BitVec.eq_of_getLsbD_eq; intro i hi
  have hx : regBits (fieldX w) = w.extractLsb' 8 4 := rfl
  simp only [formatI_bit, fieldCategory, hx, fieldNN, BitVec.getLsbD_extractLsb']
  by_cases h : i < 8
  · simp [h]
  · by_cases h' : i < 12
    · simp [h, h', show i - 8 < 4 by omega, show 8 + (i - 8) = i by omega]
    · simp [h, h', show i - 12 < 4 by omega, show 12 + (i - 12) = i by omega]

theorem formatR_fields (w : Word) : formatR (fieldCategory w) (fieldX w) (fieldY w) (fieldN w) = w := by
  apply BitVec.eq_of_getLsbD_eq; intro i hi
  have hx : regBits (fieldX w) = w.extractLsb' 8 4 := rfl
  have hy : regBits (fieldY w) = w.extractLsb' 4 4 := rfl
  simp only [formatR_bit, fieldCategory, hx, hy, fieldN, BitVec.getLsbD_extractLsb']
  by_cases h : i < 4
  · simp [h]
  · by_cases h' : i < 8
    · simp [h, h', show i - 4 < 4 by omega, show 4 + (i - 4) = i by omega]
    · by_cases h'' : i < 12
      · simp [h, h', h'', show i - 8 < 4 by omega, show 8 + (i - 8) = i by omega]
      · simp [h, h', h'', show i - 12 < 4 by omega, show 12 + (i - 12) = i by omega]

/-- The bytes of a word, put together again, are the word (R53, R83). -/
@[simp] theorem wordOfBytes_wordBytes (w : Word) : wordOfBytes (w.extractLsb' 8 8) (w.extractLsb' 0 8) = w := by
  apply BitVec.eq_of_getLsbD_eq; intro i hi
  show (w.extractLsb' 8 8 ++ w.extractLsb' 0 8 : BitVec (8 + 8)).getLsbD i = _
  rw [BitVec.getLsbD_append, BitVec.getLsbD_extractLsb', BitVec.getLsbD_extractLsb']
  by_cases h : i < 8
  · simp [h]
  · simp [h, show i - 8 < 8 by omega, show 8 + (i - 8) = i by omega]

/-! ### Decode as a case distinction -/

/-- A 4-bit value is one of sixteen. -/
theorem nibble_cases (c : BitVec 4) :
    c = 0 ∨ c = 1 ∨ c = 2 ∨ c = 3 ∨ c = 4 ∨ c = 5 ∨ c = 6 ∨ c = 7 ∨ c = 8 ∨ c = 9 ∨ c = 10 ∨ c = 11 ∨ c = 12 ∨
      c = 13 ∨ c = 14 ∨ c = 15 := by revert c; decide

/-- What category 0 decodes to. -/
theorem decodeCategory0_ok {w : Word} {i : Instr} (h : decodeCategory0 w = .ok i) :
    (w = 0x0000 ∧ i = .nop) ∨ (w = 0x00E0 ∧ i = .cls) ∨ (w = 0x00EE ∧ i = .ret) := by
  unfold decodeCategory0 at h
  repeat' split at h
  all_goals cases h
  all_goals simp [*]

/-- What category 8 decodes to. -/
theorem decodeCategory8_ok {x y : Reg} {n : BitVec 4} {i : Instr} (h : decodeCategory8 x y n = .ok i) :
    (n = 0x0 ∧ i = .ldReg x y) ∨ (n = 0x1 ∧ i = .or x y) ∨ (n = 0x2 ∧ i = .and x y) ∨ (n = 0x3 ∧ i = .xor x y) ∨
    (n = 0x4 ∧ i = .addReg x y) ∨ (n = 0x5 ∧ i = .sub x y) ∨ (n = 0x6 ∧ i = .shr x) ∨ (n = 0x7 ∧ i = .subn x y) ∨
    (n = 0xE ∧ i = .shl x) := by
  unfold decodeCategory8 at h
  repeat' split at h
  all_goals cases h
  all_goals simp [*]

/-- What category E decodes to. -/
theorem decodeCategoryE_ok {x : Reg} {nn : Byte} {i : Instr} (h : decodeCategoryE x nn = .ok i) :
    (nn = 0x9E ∧ i = .skp x) ∨ (nn = 0xA1 ∧ i = .sknp x) := by
  unfold decodeCategoryE at h
  repeat' split at h
  all_goals cases h
  all_goals simp [*]

/-- What category F decodes to. -/
theorem decodeCategoryF_ok {x : Reg} {nn : Byte} {i : Instr} (h : decodeCategoryF x nn = .ok i) :
    (nn = 0x07 ∧ i = .ldVdt x) ∨ (nn = 0x0A ∧ i = .ldK x) ∨ (nn = 0x15 ∧ i = .ldDt x) ∨ (nn = 0x18 ∧ i = .ldSt x) ∨
    (nn = 0x1E ∧ i = .addIdx x) ∨ (nn = 0x29 ∧ i = .ldF x) ∨ (nn = 0x33 ∧ i = .ldB x) ∨ (nn = 0x55 ∧ i = .stM x) ∨
    (nn = 0x65 ∧ i = .ldM x) := by
  unfold decodeCategoryF at h
  repeat' split at h
  all_goals cases h
  all_goals simp [*]

/-- Everything the decoder can answer, category by category (R74). -/
theorem decode_ok {w : Word} {i : Instr} (h : decode w = .ok i) :
    (fieldCategory w = 0x0 ∧ decodeCategory0 w = .ok i) ∨
    (fieldCategory w = 0x1 ∧ i = .jp (fieldNNN w)) ∨ (fieldCategory w = 0x2 ∧ i = .call (fieldNNN w)) ∨
    (fieldCategory w = 0x3 ∧ i = .seImm (fieldX w) (fieldNN w)) ∨
    (fieldCategory w = 0x4 ∧ i = .sneImm (fieldX w) (fieldNN w)) ∨
    (fieldCategory w = 0x5 ∧ fieldN w = 0x0 ∧ i = .seReg (fieldX w) (fieldY w)) ∨
    (fieldCategory w = 0x6 ∧ i = .ldImm (fieldX w) (fieldNN w)) ∨
    (fieldCategory w = 0x7 ∧ i = .addImm (fieldX w) (fieldNN w)) ∨
    (fieldCategory w = 0x8 ∧ decodeCategory8 (fieldX w) (fieldY w) (fieldN w) = .ok i) ∨
    (fieldCategory w = 0x9 ∧ fieldN w = 0x0 ∧ i = .sneReg (fieldX w) (fieldY w)) ∨
    (fieldCategory w = 0xA ∧ i = .ldIdx (fieldNNN w)) ∨ (fieldCategory w = 0xB ∧ i = .jpV0 (fieldNNN w)) ∨
    (fieldCategory w = 0xC ∧ i = .rnd (fieldX w) (fieldNN w)) ∨
    (fieldCategory w = 0xD ∧ i = .drw (fieldX w) (fieldY w) (fieldN w).toNat) ∨
    (fieldCategory w = 0xE ∧ decodeCategoryE (fieldX w) (fieldNN w) = .ok i) ∨
    (fieldCategory w = 0xF ∧ decodeCategoryF (fieldX w) (fieldNN w) = .ok i) := by
  rcases nibble_cases (fieldCategory w) with
    c | c | c | c | c | c | c | c | c | c | c | c | c | c | c | c <;> simp only [decode, c] at h
  case inr.inr.inr.inr.inr.inl =>
    have h : (if fieldN w = 0 then Except.ok (Instr.seReg (fieldX w) (fieldY w))
      else Except.error DecodeError.illegalInstruction) = Except.ok i := h
    split at h <;> cases h
    simp [*]
  case inr.inr.inr.inr.inr.inr.inr.inr.inr.inl =>
    have h : (if fieldN w = 0 then Except.ok (Instr.sneReg (fieldX w) (fieldY w))
      else Except.error DecodeError.illegalInstruction) = Except.ok i := h
    split at h <;> cases h
    simp [*]
  case inl => exact .inl ⟨c, h⟩
  case inr.inr.inr.inr.inr.inr.inr.inr.inl =>
    have h : decodeCategory8 (fieldX w) (fieldY w) (fieldN w) = Except.ok i := h
    simp [c, h]
  case inr.inr.inr.inr.inr.inr.inr.inr.inr.inr.inr.inr.inr.inr.inl =>
    have h : decodeCategoryE (fieldX w) (fieldNN w) = Except.ok i := h
    simp [c, h]
  case inr.inr.inr.inr.inr.inr.inr.inr.inr.inr.inr.inr.inr.inr.inr =>
    have h : decodeCategoryF (fieldX w) (fieldNN w) = Except.ok i := h
    simp [c, h]
  all_goals cases h; simp [c]

end Sys2Proof
end

