-- ==== Sys2Proof/Laws/Framebuffer.lean ====
section
/-! SUPPORT. The laws of FB: toggling a cell, the drawing loop, and the cells of a sprite (R161). -/

namespace Sys2Proof.Machine

/-- A cell after a toggle: the one named is inverted, the others are as before. -/
theorem cell_toggle (f : Framebuffer) (k j : Nat) (hj : j < 2048) :
    (f.toggle k).cell j = (f.cell j ^^ decide (j = k)) := by
  simp only [Framebuffer.cell, Framebuffer.toggle, Vector.getElem?_setIfInBounds]
  by_cases h : k / 64 = j / 64
  · have he : (k % 64 = j % 64) = (j = k) := propext (by omega)
    rw [if_pos h, if_pos (by omega), Option.getD_some, BitVec.getLsbD_xor, BitVec.getLsbD_twoPow, h]
    simp [he, Nat.mod_lt]
  · rw [if_neg h]
    have : j ≠ k := fun e => h (by rw [e])
    simp [this]

/-- Two framebuffers with the same cells are equal. -/
theorem framebuffer_ext {f g : Framebuffer} (h : ∀ k, k < 2048 → f.cell k = g.cell k) : f = g := by
  apply Vector.ext
  intro i hi
  apply BitVec.eq_of_getLsbD_eq
  intro j hj
  have := h (i * 64 + j) (by omega)
  have h1 : (i * 64 + j) / 64 = i := by omega
  have h2 : (i * 64 + j) % 64 = j := by omega
  simpa [Framebuffer.cell, h1, h2, hi] using this

@[simp] theorem cell_clear (k : Nat) : Framebuffer.clear.cell k = false := by
  simp only [Framebuffer.cell, Framebuffer.clear, Vector.getElem?_replicate]
  split <;> simp

/-! ### The drawing loop -/

/-- After the loop a cell is inverted exactly when it was met an odd number of times. -/
theorem cell_foldl_drawCell (l : List Nat) (acc : Framebuffer × Bool) (j : Nat) (hj : j < 2048) :
    (l.foldl drawCell acc).1.cell j = (acc.1.cell j ^^ decide (l.count j % 2 = 1)) := by
  induction l generalizing acc with
  | nil => simp
  | cons k l ih =>
    rw [List.foldl_cons, ih, drawCell, cell_toggle _ _ _ hj, List.count_cons]
    by_cases h : j = k
    · subst h
      rcases Nat.mod_two_eq_zero_or_one (l.count j) with hc | hc
      · simp [hc, Nat.add_mod]
      · simp [hc, Nat.add_mod]
    · simp [h, Ne.symm h]

/-- The same for the whole draw. -/
theorem cell_drawCells (f : Framebuffer) (l : List Nat) (j : Nat) (hj : j < 2048) :
    (drawCells f l).1.cell j = (f.cell j ^^ decide (l.count j % 2 = 1)) := cell_foldl_drawCell l _ j hj

/-- Drawing the same cells twice restores the framebuffer (R162). -/
theorem drawCells_twice (f : Framebuffer) (l : List Nat) : (drawCells (drawCells f l).1 l).1 = f :=
  framebuffer_ext fun k hk => by simp [cell_drawCells _ _ _ hk]

/-- Where no cell is met twice, a cell is inverted exactly when it is met. -/
theorem cell_drawCells_nodup (f : Framebuffer) {l : List Nat} (h : l.Nodup) (j : Nat) (hj : j < 2048) :
    (drawCells f l).1.cell j = (f.cell j ^^ decide (j ∈ l)) := by
  rw [cell_drawCells f l j hj, h.count]
  split <;> simp [*]

/-- Where no cell is met twice, the collision is that of a cell that was on before the draw (R161 (b)). -/
theorem collision_foldl_drawCell {l : List Nat} (h : l.Nodup) (hl : ∀ k ∈ l, k < 2048) (acc : Framebuffer × Bool) :
    (l.foldl drawCell acc).2 = (acc.2 || l.any acc.1.cell) := by
  induction l generalizing acc with
  | nil => simp
  | cons k l ih =>
    obtain ⟨hk, hn⟩ := List.nodup_cons.1 h
    rw [List.foldl_cons, ih hn (fun j hj => hl j (List.mem_cons_of_mem _ hj)), drawCell, List.any_cons]
    have : l.any (acc.1.toggle k).cell = l.any acc.1.cell := by
      refine Bool.eq_iff_iff.2 ?_
      simp only [List.any_eq_true]
      refine exists_congr fun j => and_congr_right fun hj => ?_
      have : j ≠ k := fun e => hk (e ▸ hj)
      rw [cell_toggle _ _ _ (hl j (List.mem_cons_of_mem _ hj))]
      simp [this]
    simp only [this, Bool.or_assoc]

theorem collision_drawCells (f : Framebuffer) {l : List Nat} (h : l.Nodup) (hl : ∀ k ∈ l, k < 2048) :
    (drawCells f l).2 = l.any f.cell := by simp [drawCells, collision_foldl_drawCell h hl]

/-! ### The cells of a sprite -/

/-- Every cell of a sprite is a cell of FB. -/
theorem spriteCell_lt (vx vy : Byte) (r c : Nat) : spriteCell vx vy r c < 2048 := by
  simp only [spriteCell]; omega

/-- Within one draw no two pixels of at most 32 rows share a cell (R161 (b)). -/
theorem spriteCell_inj {vx vy : Byte} {r r' c c' : Nat} (hr : r < 32) (hr' : r' < 32) (hc : c < 8) (hc' : c' < 8)
    (h : spriteCell vx vy r c = spriteCell vx vy r' c') : r = r' ∧ c = c' := by
  simp only [spriteCell] at h; omega

theorem mem_rowCells {vx vy : Byte} {r k : Nat} {row : Byte} :
    k ∈ rowCells vx vy r row ↔ ∃ c, c < 8 ∧ spriteBit row c = true ∧ k = spriteCell vx vy r c := by
  simp only [rowCells, List.mem_map, List.mem_filter, List.mem_range]
  exact exists_congr fun c => by tauto

theorem mem_spriteCells {s : State} {x y : Reg} {n k : Nat} :
    k ∈ s.spriteCells x y n ↔ ∃ r c, r < n ∧ c < 8 ∧ spriteBit (Memory.read s.mem (s.indexAddress r)) c = true ∧
      k = spriteCell (s.getV x) (s.getV y) r c := by
  simp only [State.spriteCells, List.mem_flatMap, List.mem_range, mem_rowCells]
  exact ⟨fun ⟨r, hr, c, h⟩ => ⟨r, c, hr, h⟩, fun ⟨r, c, hr, h⟩ => ⟨r, hr, c, h⟩⟩

theorem spriteCells_lt {s : State} {x y : Reg} {n : Nat} : ∀ k ∈ s.spriteCells x y n, k < 2048 := by
  intro k hk
  obtain ⟨r, c, -, -, -, rfl⟩ := mem_spriteCells.1 hk
  exact spriteCell_lt _ _ _ _

theorem spriteCells_nodup (s : State) (x y : Reg) {n : Nat} (hn : n ≤ 32) : (s.spriteCells x y n).Nodup := by
  refine List.nodup_flatMap.2 ⟨fun r hr => ?_, ?_⟩
  · have hr := List.mem_range.1 hr
    refine List.Nodup.map_on (fun c hc c' hc' h => ?_) (List.nodup_range.filter _)
    exact (spriteCell_inj (by omega) (by omega) (List.mem_range.1 (List.mem_of_mem_filter hc))
      (List.mem_range.1 (List.mem_of_mem_filter hc')) h).2
  · refine (List.nodup_range (n := n)).imp_of_mem fun {r r'} hr hr' hne => ?_
    intro k hk hk'
    obtain ⟨c, hc, -, rfl⟩ := mem_rowCells.1 hk
    obtain ⟨c', hc', -, h⟩ := mem_rowCells.1 hk'
    have hr := List.mem_range.1 hr
    have hr' := List.mem_range.1 hr'
    exact hne (spriteCell_inj (by omega) (by omega) hc hc' h).1

end Sys2Proof.Machine
end

