-- ==== Sys2Proof/Laws/Memory.lean ====
section
/-! SUPPORT. The laws of MEM: read after write, what a write leaves alone, the canonical form, and the check loops. -/

namespace Sys2Proof.Machine

/-! ### Reading what was written -/

theorem lookup_put_same (m : Memory) (a : Nat) (b : Byte) : Memory.lookup (Memory.put m a b) a = some b := by
  induction m with
  | nil => simp [Memory.put, Memory.lookup]
  | cons c m ih =>
    obtain ⟨k, d⟩ := c
    simp only [Memory.put]
    split
    · simp [Memory.lookup]
    · split
      · simp [Memory.lookup]
      · have hk : k ≠ a := fun e => by simp_all
        simp [Memory.lookup, hk, ih]

theorem lookup_put_other (m : Memory) {a a' : Nat} (b : Byte) (h : a' ≠ a) :
    Memory.lookup (Memory.put m a b) a' = Memory.lookup m a' := by
  induction m with
  | nil => simp [Memory.put, Memory.lookup, Ne.symm h]
  | cons c m ih =>
    obtain ⟨k, d⟩ := c
    simp only [Memory.put]
    split
    · simp [Memory.lookup, Ne.symm h]
    · split
      · subst_vars; simp [Memory.lookup, Ne.symm h]
      · simp [Memory.lookup, ih]

theorem lookup_unlist_same (m : Memory) (a : Nat) : Memory.lookup (Memory.unlist m a) a = none := by
  induction m with
  | nil => rfl
  | cons c m ih =>
    obtain ⟨k, d⟩ := c
    by_cases hk : k = a
    · simpa [Memory.unlist, hk] using ih
    · simpa [Memory.unlist, hk, Memory.lookup] using ih

theorem lookup_unlist_other (m : Memory) {a a' : Nat} (h : a' ≠ a) :
    Memory.lookup (Memory.unlist m a) a' = Memory.lookup m a' := by
  induction m with
  | nil => rfl
  | cons c m ih =>
    obtain ⟨k, d⟩ := c
    by_cases hk : k = a
    · subst hk; simpa [Memory.unlist, Memory.lookup, Ne.symm h] using ih
    · have : Memory.unlist ((k, d) :: m) a = (k, d) :: Memory.unlist m a := by simp [Memory.unlist, hk]
      simp only [this, Memory.lookup, ih]

/-- Read after write at the same address (R60). -/
theorem read_write_same (m : Memory) {a : Nat} (b : Byte) (h : a < 4096) :
    Memory.read (Memory.write m a b) a = b := by
  simp only [Memory.write, Config.memSize, h, if_true, Memory.read]
  split
  · simp [lookup_unlist_same, *]
  · simp [lookup_put_same]

/-- A write leaves every other byte alone (R54). -/
theorem read_write_other (m : Memory) {a a' : Nat} (b : Byte) (h : a' ≠ a) :
    Memory.read (Memory.write m a b) a' = Memory.read m a' := by
  simp only [Memory.write, Memory.read]
  split
  · split
    · rw [lookup_unlist_other m h]
    · rw [lookup_put_other m b h]
  · rfl

/-- A run of stores leaves every byte outside it alone. -/
theorem read_store_outside (bs : List Byte) (m : Memory) (base a : Nat) (h : a < base ∨ base + bs.length ≤ a) :
    Memory.read (Memory.store m base bs) a = Memory.read m a := by
  induction bs generalizing m base with
  | nil => rfl
  | cons b bs ih =>
    simp only [List.length_cons] at h
    rw [Memory.store, ih _ _ (by omega), read_write_other _ _ (by omega)]

/-- A run of stores within memory is read back. -/
theorem read_store_inside (bs : List Byte) (m : Memory) (base k : Nat) (hk : k < bs.length)
    (h : base + bs.length ≤ 4096) : Memory.read (Memory.store m base bs) (base + k) = bs[k] := by
  induction bs generalizing m base k with
  | nil => simp at hk
  | cons b bs ih =>
    simp only [List.length_cons] at h hk
    cases k with
    | zero =>
      rw [Memory.store, read_store_outside _ _ _ _ (by omega), Nat.add_zero]
      exact read_write_same m b (by omega)
    | succ k =>
      rw [Memory.store, show base + (k + 1) = base + 1 + k by omega, ih _ _ k (by omega) (by omega)]
      rfl

/-! ### The canonical form -/

theorem mem_put {m : Memory} {a : Nat} {b : Byte} {c : Host.Cell} (h : c ∈ Memory.put m a b) : c = (a, b) ∨ c ∈ m := by
  induction m with
  | nil => simpa [Memory.put] using h
  | cons d m ih =>
    obtain ⟨k, e⟩ := d
    simp only [Memory.put] at h
    split at h
    · simpa using h
    · split at h
      · simp only [List.mem_cons] at h ⊢; tauto
      · simp only [List.mem_cons] at h ⊢
        rcases h with h | h
        · exact .inr (.inl h)
        · rcases ih h with h | h
          · exact .inl h
          · exact .inr (.inr h)

theorem put_sorted {m : Memory} (a : Nat) (b : Byte) (h : m.Pairwise (fun c d => c.1 < d.1)) :
    (Memory.put m a b).Pairwise (fun c d => c.1 < d.1) := by
  induction m with
  | nil => simp [Memory.put]
  | cons c m ih =>
    obtain ⟨k, d⟩ := c
    obtain ⟨h1, h2⟩ := List.pairwise_cons.1 h
    simp only [Memory.put]
    split
    · refine List.pairwise_cons.2 ⟨fun e he => ?_, h⟩
      rcases List.mem_cons.1 he with he | he
      · subst he; assumption
      · exact Nat.lt_trans ‹a < k› (h1 e he)
    · split
      · subst_vars; exact List.pairwise_cons.2 ⟨h1, h2⟩
      · refine List.pairwise_cons.2 ⟨fun e he => ?_, ih h2⟩
        rcases mem_put he with he | he
        · subst he; show k < a; omega
        · exact h1 e he

/-- Every write keeps the canonical form. -/
theorem write_wf {m : Memory} (a : Nat) (b : Byte) (h : Memory.wf m) : Memory.wf (Memory.write m a b) := by
  unfold Memory.write
  split
  · split
    · exact ⟨h.1.filter _, fun c hc => h.2 c (List.mem_of_mem_filter hc)⟩
    · refine ⟨put_sorted a b h.1, fun c hc => ?_⟩
      rcases mem_put hc with hc | hc
      · subst hc; exact ⟨‹_›, ‹_›⟩
      · exact h.2 c hc
  · exact h

/-- Every run of stores keeps the canonical form. -/
theorem store_wf {m : Memory} (base : Nat) (bs : List Byte) (h : Memory.wf m) : Memory.wf (Memory.store m base bs) := by
  induction bs generalizing m base with
  | nil => exact h
  | cons b bs ih => exact ih _ (write_wf _ _ h)

/-- The memory of the reset state is in canonical form. -/
theorem reset_mem_wf : Memory.wf State.reset.mem := by decide

/-- What reset leaves at an address beyond the glyph table (R30). -/
theorem unlisted_beyond {a : Nat} (h : 80 ≤ a) : Memory.unlisted a = 0x00 := by
  have : glyphTable.length ≤ a := h
  simp [Memory.unlisted, List.getD_eq_getElem?_getD, List.getElem?_eq_none this]

/-- What reset leaves at an address of the glyph table (R30). -/
theorem unlisted_glyph {a : Nat} (h : a < 80) : some (Memory.unlisted a) = glyphTable[a]? := by
  have : a < glyphTable.length := h
  simp [Memory.unlisted, List.getD_eq_getElem?_getD, List.getElem?_eq_getElem this]

/-! ### The check loops (R58) -/

theorem firstFault_none {check : Nat → Option (Fault × Nat)} {base n : Nat} :
    firstFault check base n = none ↔ ∀ k, k < n → check (base + k) = none := by
  simp [firstFault, List.findSome?_eq_none_iff]

/-- The fault found is that of the smallest offset whose check fails. -/
theorem firstFault_some {check : Nat → Option (Fault × Nat)} {base n k : Nat} {f : Fault × Nat} (hk : k < n)
    (hf : check (base + k) = some f) (hlt : ∀ j, j < k → check (base + j) = none) :
    firstFault check base n = some f := by
  induction n generalizing k base with
  | zero => omega
  | succ n ih =>
    cases k with
    | zero => rw [Nat.add_zero] at hf; simp [firstFault, List.range_succ_eq_map, hf]
    | succ k =>
      have h0 : check base = none := hlt 0 (by omega)
      have := ih (base := base + 1) (k := k) (by omega) (by rw [← hf]; congr 1; omega)
        (fun j hj => by rw [← hlt (j + 1) (by omega)]; congr 1; omega)
      simp only [firstFault] at this ⊢
      rw [List.range_succ_eq_map, List.findSome?_cons, Nat.add_zero, h0, List.findSome?_map, ← this]
      simp only [Function.comp_def]
      congr 1; funext j; congr 1; omega

/-- No read of the run is beyond memory exactly when the run is empty or ends within it (R56). -/
theorem firstFault_read_none {base n : Nat} :
    firstFault checkRead base n = none ↔ n = 0 ∨ base + n ≤ 4096 := by
  rw [firstFault_none]
  constructor
  · intro h
    by_cases hn : n = 0
    · exact .inl hn
    · have := h (n - 1) (by omega)
      simp [checkRead] at this
      omega
  · intro h k hk
    simp [checkRead]; omega

/-- A run of reads that goes beyond memory faults at its first byte there (R56, R58). -/
theorem firstFault_read_some {base n : Nat} (hn : 1 ≤ n) (h : 4096 ≤ base + (n - 1)) :
    firstFault checkRead base n = some (.memoryBounds, if 4096 ≤ base then base else 4096) := by
  split
  · exact firstFault_some (k := 0) (by omega) (by simp [checkRead, *]) (by omega)
  · refine firstFault_some (k := 4096 - base) (by omega) ?_ (fun j hj => ?_)
    · simp [checkRead, show base + (4096 - base) = 4096 by omega]
    · simp [checkRead]; omega

/-- No store of the run is refused exactly when the run is empty or lies in 0x200 to 0xFFF (R56, R57). -/
theorem firstFault_write_none {base n : Nat} :
    firstFault checkWrite base n = none ↔ n = 0 ∨ (0x200 ≤ base ∧ base + n ≤ 4096) := by
  rw [firstFault_none]
  constructor
  · intro h
    by_cases hn : n = 0
    · exact .inl hn
    · have h0 := h 0 (by omega)
      have h1 := h (n - 1) (by omega)
      simp only [checkWrite, Config.memSize, Config.progBase] at h0 h1
      refine .inr ⟨?_, ?_⟩
      · by_contra hc
        rw [if_neg (by omega), if_pos (by omega)] at h0
        simp at h0
      · by_contra hc
        rw [if_pos (by omega)] at h1
        simp at h1
  · intro h k hk
    simp only [checkWrite, Config.memSize, Config.progBase]
    rw [if_neg (by omega), if_neg (by omega)]

/-- A run of stores that begins below 0x200 faults at its first byte (R57, R58). -/
theorem firstFault_write_protected {base n : Nat} (hn : 1 ≤ n) (h : base < 0x200) :
    firstFault checkWrite base n = some (.protectedStore, base) :=
  firstFault_some (k := 0) (by omega)
    (by simp only [checkWrite, Config.memSize, Config.progBase]; rw [if_neg (by omega), if_pos (by omega)]; simp)
    (by omega)

/-- A run of stores that begins at 0x200 or above and goes beyond memory faults at its first byte there (R56, R58). -/
theorem firstFault_write_beyond {base n : Nat} (hn : 1 ≤ n) (hb : 0x200 ≤ base) (h : 4096 ≤ base + (n - 1)) :
    firstFault checkWrite base n = some (.memoryBounds, if 4096 ≤ base then base else 4096) := by
  split
  · exact firstFault_some (k := 0) (by omega) (by simp [checkWrite, *]) (by omega)
  · refine firstFault_some (k := 4096 - base) (by omega) ?_ (fun j hj => ?_)
    · simp [checkWrite, show base + (4096 - base) = 4096 by omega]
    · simp only [checkWrite, Config.memSize, Config.progBase]
      rw [if_neg (by omega), if_neg (by omega)]

end Sys2Proof.Machine
end

