-- ==== Sys2Proof/Laws/PerInstr.lean ====
section
/-! SUPPORT. Families of statements made for every instruction, one lemma per constructor. -/

namespace Sys2Proof

/-- The word of the instruction has the bits its row fixes: `encode i &&& mask` is the row's match, for the row that bears
the mnemonic of the instruction (R75, R83). -/
def Laws.OpcodeRow.Statement (i : Instr) : Prop :=
  ∃ r ∈ opcodeTable, r.name = mnemonic i ∧ encode i &&& r.mask = r.value

/-- A word of format A has the bits of its category (R72). -/
theorem formatA_hit (c : BitVec 4) (a : Addr12) : formatA c a &&& 0xF000 = formatA c 0 := by
  apply BitVec.eq_of_getLsbD_eq; intro i hi
  rw [BitVec.getLsbD_and, formatA_bit, formatA_bit]
  have : ∀ i, i < 16 → (0xF000#16).getLsbD i = decide (12 ≤ i) := by decide
  by_cases h : i < 12
  · simp [this i hi, h]
  · simp [this i hi, h, show 12 ≤ i by omega]

/-- A word of format I has the bits of its category (R72). -/
theorem formatI_hit (c : BitVec 4) (x : Reg) (nn : Byte) : formatI c x nn &&& 0xF000 = formatI c 0 0 := by
  apply BitVec.eq_of_getLsbD_eq; intro i hi
  rw [BitVec.getLsbD_and, formatI_bit, formatI_bit]
  have : ∀ i, i < 16 → (0xF000#16).getLsbD i = decide (12 ≤ i) := by decide
  have h0 : ∀ i, (regBits 0).getLsbD i = false := fun i => by simp [regBits]
  by_cases h : i < 12
  · simp [this i hi, h, h0]
  · simp [this i hi, h, show 12 ≤ i by omega, show ¬ i < 8 by omega]

/-- A word of format X has the bits of its category and its function (R72). -/
theorem formatX_hit (c : BitVec 4) (x : Reg) (nn : Byte) : formatI c x nn &&& 0xF0FF = formatI c 0 nn := by
  apply BitVec.eq_of_getLsbD_eq; intro i hi
  rw [BitVec.getLsbD_and, formatI_bit, formatI_bit]
  have : ∀ i, i < 16 → (0xF0FF#16).getLsbD i = decide (12 ≤ i ∨ i < 8) := by decide
  have h0 : ∀ i, (regBits 0).getLsbD i = false := fun i => by simp [regBits]
  by_cases h : i < 8
  · simp [this i hi, h]
  · by_cases h' : i < 12
    · simp [this i hi, h, h', h0]
    · simp [this i hi, h, h', show 12 ≤ i by omega]

/-- A word of format R has the bits of its category and its sub-opcode (R72). -/
theorem formatR_hit (c : BitVec 4) (x y : Reg) (n : BitVec 4) : formatR c x y n &&& 0xF00F = formatR c 0 0 n := by
  apply BitVec.eq_of_getLsbD_eq; intro i hi
  rw [BitVec.getLsbD_and, formatR_bit, formatR_bit]
  have : ∀ i, i < 16 → (0xF00F#16).getLsbD i = decide (12 ≤ i ∨ i < 4) := by decide
  have h0 : ∀ i, (regBits 0).getLsbD i = false := fun i => by simp [regBits]
  by_cases h : i < 4
  · simp [this i hi, h]
  · by_cases h' : i < 12
    · simp [this i hi, h, h', show ¬ 12 ≤ i by omega, h0]
    · simp [this i hi, h, h', show 12 ≤ i by omega, show ¬ i < 8 by omega]

/-- A word of format D has the bits of its category (R72). -/
theorem formatD_hit (c : BitVec 4) (x y : Reg) (n : BitVec 4) : formatR c x y n &&& 0xF000 = formatR c 0 0 0 := by
  apply BitVec.eq_of_getLsbD_eq; intro i hi
  rw [BitVec.getLsbD_and, formatR_bit, formatR_bit]
  have : ∀ i, i < 16 → (0xF000#16).getLsbD i = decide (12 ≤ i) := by decide
  have h0 : ∀ i, (regBits 0).getLsbD i = false := fun i => by simp [regBits]
  by_cases h : i < 12
  · simp [this i hi, h, show ¬ 12 ≤ i by omega, h0]
  · simp [this i hi, h, show 12 ≤ i by omega, show ¬ i < 8 by omega, show ¬ i < 4 by omega]

namespace Laws.OpcodeRow

theorem nop : Statement .nop := ⟨⟨"NOP", 0xFFFF, 0x0000⟩, by decide⟩
theorem cls : Statement .cls := ⟨⟨"CLS", 0xFFFF, 0x00E0⟩, by decide⟩
theorem ret : Statement .ret := ⟨⟨"RET", 0xFFFF, 0x00EE⟩, by decide⟩
theorem jp (nnn : Addr12) : Statement (.jp nnn) :=
  ⟨⟨"JP", 0xF000, 0x1000⟩, by decide, rfl, formatA_hit 0x1 nnn⟩
theorem call (nnn : Addr12) : Statement (.call nnn) :=
  ⟨⟨"CALL", 0xF000, 0x2000⟩, by decide, rfl, formatA_hit 0x2 nnn⟩
theorem seImm (x : Reg) (nn : Byte) : Statement (.seImm x nn) :=
  ⟨⟨"SE_IMM", 0xF000, 0x3000⟩, by decide, rfl, formatI_hit 0x3 x nn⟩
theorem sneImm (x : Reg) (nn : Byte) : Statement (.sneImm x nn) :=
  ⟨⟨"SNE_IMM", 0xF000, 0x4000⟩, by decide, rfl, formatI_hit 0x4 x nn⟩
theorem seReg (x y : Reg) : Statement (.seReg x y) :=
  ⟨⟨"SE_REG", 0xF00F, 0x5000⟩, by decide, rfl, formatR_hit 0x5 x y 0x0⟩
theorem ldImm (x : Reg) (nn : Byte) : Statement (.ldImm x nn) :=
  ⟨⟨"LD_IMM", 0xF000, 0x6000⟩, by decide, rfl, formatI_hit 0x6 x nn⟩
theorem addImm (x : Reg) (nn : Byte) : Statement (.addImm x nn) :=
  ⟨⟨"ADD_IMM", 0xF000, 0x7000⟩, by decide, rfl, formatI_hit 0x7 x nn⟩
theorem ldReg (x y : Reg) : Statement (.ldReg x y) :=
  ⟨⟨"LD_REG", 0xF00F, 0x8000⟩, by decide, rfl, formatR_hit 0x8 x y 0x0⟩
theorem or (x y : Reg) : Statement (.or x y) :=
  ⟨⟨"OR", 0xF00F, 0x8001⟩, by decide, rfl, formatR_hit 0x8 x y 0x1⟩
theorem and (x y : Reg) : Statement (.and x y) :=
  ⟨⟨"AND", 0xF00F, 0x8002⟩, by decide, rfl, formatR_hit 0x8 x y 0x2⟩
theorem xor (x y : Reg) : Statement (.xor x y) :=
  ⟨⟨"XOR", 0xF00F, 0x8003⟩, by decide, rfl, formatR_hit 0x8 x y 0x3⟩
theorem addReg (x y : Reg) : Statement (.addReg x y) :=
  ⟨⟨"ADD_REG", 0xF00F, 0x8004⟩, by decide, rfl, formatR_hit 0x8 x y 0x4⟩
theorem sub (x y : Reg) : Statement (.sub x y) :=
  ⟨⟨"SUB", 0xF00F, 0x8005⟩, by decide, rfl, formatR_hit 0x8 x y 0x5⟩
theorem shr (x : Reg) : Statement (.shr x) :=
  ⟨⟨"SHR", 0xF00F, 0x8006⟩, by decide, rfl, formatR_hit 0x8 x 0 0x6⟩
theorem subn (x y : Reg) : Statement (.subn x y) :=
  ⟨⟨"SUBN", 0xF00F, 0x8007⟩, by decide, rfl, formatR_hit 0x8 x y 0x7⟩
theorem shl (x : Reg) : Statement (.shl x) :=
  ⟨⟨"SHL", 0xF00F, 0x800E⟩, by decide, rfl, formatR_hit 0x8 x 0 0xE⟩
theorem sneReg (x y : Reg) : Statement (.sneReg x y) :=
  ⟨⟨"SNE_REG", 0xF00F, 0x9000⟩, by decide, rfl, formatR_hit 0x9 x y 0x0⟩
theorem ldIdx (nnn : Addr12) : Statement (.ldIdx nnn) :=
  ⟨⟨"LD_IDX", 0xF000, 0xA000⟩, by decide, rfl, formatA_hit 0xA nnn⟩
theorem jpV0 (nnn : Addr12) : Statement (.jpV0 nnn) :=
  ⟨⟨"JP_V0", 0xF000, 0xB000⟩, by decide, rfl, formatA_hit 0xB nnn⟩
theorem rnd (x : Reg) (nn : Byte) : Statement (.rnd x nn) :=
  ⟨⟨"RND", 0xF000, 0xC000⟩, by decide, rfl, formatI_hit 0xC x nn⟩
theorem drw (x y : Reg) (n : Nat) : Statement (.drw x y n) :=
  ⟨⟨"DRW", 0xF000, 0xD000⟩, by decide, rfl, formatD_hit 0xD x y (BitVec.ofNat 4 n)⟩
theorem skp (x : Reg) : Statement (.skp x) :=
  ⟨⟨"SKP", 0xF0FF, 0xE09E⟩, by decide, rfl, formatX_hit 0xE x 0x9E⟩
theorem sknp (x : Reg) : Statement (.sknp x) :=
  ⟨⟨"SKNP", 0xF0FF, 0xE0A1⟩, by decide, rfl, formatX_hit 0xE x 0xA1⟩
theorem ldVdt (x : Reg) : Statement (.ldVdt x) :=
  ⟨⟨"LD_VDT", 0xF0FF, 0xF007⟩, by decide, rfl, formatX_hit 0xF x 0x07⟩
theorem ldK (x : Reg) : Statement (.ldK x) :=
  ⟨⟨"LD_K", 0xF0FF, 0xF00A⟩, by decide, rfl, formatX_hit 0xF x 0x0A⟩
theorem ldDt (x : Reg) : Statement (.ldDt x) :=
  ⟨⟨"LD_DT", 0xF0FF, 0xF015⟩, by decide, rfl, formatX_hit 0xF x 0x15⟩
theorem ldSt (x : Reg) : Statement (.ldSt x) :=
  ⟨⟨"LD_ST", 0xF0FF, 0xF018⟩, by decide, rfl, formatX_hit 0xF x 0x18⟩
theorem addIdx (x : Reg) : Statement (.addIdx x) :=
  ⟨⟨"ADD_IDX", 0xF0FF, 0xF01E⟩, by decide, rfl, formatX_hit 0xF x 0x1E⟩
theorem ldF (x : Reg) : Statement (.ldF x) :=
  ⟨⟨"LD_F", 0xF0FF, 0xF029⟩, by decide, rfl, formatX_hit 0xF x 0x29⟩
theorem ldB (x : Reg) : Statement (.ldB x) :=
  ⟨⟨"LD_B", 0xF0FF, 0xF033⟩, by decide, rfl, formatX_hit 0xF x 0x33⟩
theorem stM (x : Reg) : Statement (.stM x) :=
  ⟨⟨"ST_M", 0xF0FF, 0xF055⟩, by decide, rfl, formatX_hit 0xF x 0x55⟩
theorem ldM (x : Reg) : Statement (.ldM x) :=
  ⟨⟨"LD_M", 0xF0FF, 0xF065⟩, by decide, rfl, formatX_hit 0xF x 0x65⟩

end Laws.OpcodeRow

end Sys2Proof
end

