-- ==== Sys2Proof/Laws/State.lean ====
section
/-! SUPPORT. One lemma per field per update of State, each true by rfl, so that no proof unfolds a record update. -/

namespace Sys2Proof.Machine

variable (s : State)

/-! ### setV -/

@[simp] theorem setV_v (x : Reg) (b : Byte) : (s.setV x b).v = s.v.set x b := rfl
@[simp] theorem setV_i (x : Reg) (b : Byte) : (s.setV x b).i = s.i := rfl
@[simp] theorem setV_pc (x : Reg) (b : Byte) : (s.setV x b).pc = s.pc := rfl
@[simp] theorem setV_stack (x : Reg) (b : Byte) : (s.setV x b).stack = s.stack := rfl
@[simp] theorem setV_sp (x : Reg) (b : Byte) : (s.setV x b).sp = s.sp := rfl
@[simp] theorem setV_key (x : Reg) (b : Byte) : (s.setV x b).key = s.key := rfl
@[simp] theorem setV_dt (x : Reg) (b : Byte) : (s.setV x b).dt = s.dt := rfl
@[simp] theorem setV_st (x : Reg) (b : Byte) : (s.setV x b).st = s.st := rfl
@[simp] theorem setV_fb (x : Reg) (b : Byte) : (s.setV x b).fb = s.fb := rfl
@[simp] theorem setV_mem (x : Reg) (b : Byte) : (s.setV x b).mem = s.mem := rfl
@[simp] theorem setV_fault (x : Reg) (b : Byte) : (s.setV x b).fault = s.fault := rfl
@[simp] theorem setV_draws (x : Reg) (b : Byte) : (s.setV x b).draws = s.draws := rfl

/-! ### setI -/

@[simp] theorem setI_v (w : Word) : (s.setI w).v = s.v := rfl
@[simp] theorem setI_i (w : Word) : (s.setI w).i = w := rfl
@[simp] theorem setI_pc (w : Word) : (s.setI w).pc = s.pc := rfl
@[simp] theorem setI_stack (w : Word) : (s.setI w).stack = s.stack := rfl
@[simp] theorem setI_sp (w : Word) : (s.setI w).sp = s.sp := rfl
@[simp] theorem setI_key (w : Word) : (s.setI w).key = s.key := rfl
@[simp] theorem setI_dt (w : Word) : (s.setI w).dt = s.dt := rfl
@[simp] theorem setI_st (w : Word) : (s.setI w).st = s.st := rfl
@[simp] theorem setI_fb (w : Word) : (s.setI w).fb = s.fb := rfl
@[simp] theorem setI_mem (w : Word) : (s.setI w).mem = s.mem := rfl
@[simp] theorem setI_fault (w : Word) : (s.setI w).fault = s.fault := rfl
@[simp] theorem setI_draws (w : Word) : (s.setI w).draws = s.draws := rfl

/-! ### setPc -/

@[simp] theorem setPc_v (w : Word) : (s.setPc w).v = s.v := rfl
@[simp] theorem setPc_i (w : Word) : (s.setPc w).i = s.i := rfl
@[simp] theorem setPc_pc (w : Word) : (s.setPc w).pc = w := rfl
@[simp] theorem setPc_stack (w : Word) : (s.setPc w).stack = s.stack := rfl
@[simp] theorem setPc_sp (w : Word) : (s.setPc w).sp = s.sp := rfl
@[simp] theorem setPc_key (w : Word) : (s.setPc w).key = s.key := rfl
@[simp] theorem setPc_dt (w : Word) : (s.setPc w).dt = s.dt := rfl
@[simp] theorem setPc_st (w : Word) : (s.setPc w).st = s.st := rfl
@[simp] theorem setPc_fb (w : Word) : (s.setPc w).fb = s.fb := rfl
@[simp] theorem setPc_mem (w : Word) : (s.setPc w).mem = s.mem := rfl
@[simp] theorem setPc_fault (w : Word) : (s.setPc w).fault = s.fault := rfl
@[simp] theorem setPc_draws (w : Word) : (s.setPc w).draws = s.draws := rfl

/-! ### setDt -/

@[simp] theorem setDt_v (b : Byte) : (s.setDt b).v = s.v := rfl
@[simp] theorem setDt_i (b : Byte) : (s.setDt b).i = s.i := rfl
@[simp] theorem setDt_pc (b : Byte) : (s.setDt b).pc = s.pc := rfl
@[simp] theorem setDt_stack (b : Byte) : (s.setDt b).stack = s.stack := rfl
@[simp] theorem setDt_sp (b : Byte) : (s.setDt b).sp = s.sp := rfl
@[simp] theorem setDt_key (b : Byte) : (s.setDt b).key = s.key := rfl
@[simp] theorem setDt_dt (b : Byte) : (s.setDt b).dt = b := rfl
@[simp] theorem setDt_st (b : Byte) : (s.setDt b).st = s.st := rfl
@[simp] theorem setDt_fb (b : Byte) : (s.setDt b).fb = s.fb := rfl
@[simp] theorem setDt_mem (b : Byte) : (s.setDt b).mem = s.mem := rfl
@[simp] theorem setDt_fault (b : Byte) : (s.setDt b).fault = s.fault := rfl
@[simp] theorem setDt_draws (b : Byte) : (s.setDt b).draws = s.draws := rfl

/-! ### setSt -/

@[simp] theorem setSt_v (b : Byte) : (s.setSt b).v = s.v := rfl
@[simp] theorem setSt_i (b : Byte) : (s.setSt b).i = s.i := rfl
@[simp] theorem setSt_pc (b : Byte) : (s.setSt b).pc = s.pc := rfl
@[simp] theorem setSt_stack (b : Byte) : (s.setSt b).stack = s.stack := rfl
@[simp] theorem setSt_sp (b : Byte) : (s.setSt b).sp = s.sp := rfl
@[simp] theorem setSt_key (b : Byte) : (s.setSt b).key = s.key := rfl
@[simp] theorem setSt_dt (b : Byte) : (s.setSt b).dt = s.dt := rfl
@[simp] theorem setSt_st (b : Byte) : (s.setSt b).st = b := rfl
@[simp] theorem setSt_fb (b : Byte) : (s.setSt b).fb = s.fb := rfl
@[simp] theorem setSt_mem (b : Byte) : (s.setSt b).mem = s.mem := rfl
@[simp] theorem setSt_fault (b : Byte) : (s.setSt b).fault = s.fault := rfl
@[simp] theorem setSt_draws (b : Byte) : (s.setSt b).draws = s.draws := rfl

/-! ### setKey -/

@[simp] theorem setKey_v (k : Fin 16) (p : Bool) : (s.setKey k p).v = s.v := rfl
@[simp] theorem setKey_i (k : Fin 16) (p : Bool) : (s.setKey k p).i = s.i := rfl
@[simp] theorem setKey_pc (k : Fin 16) (p : Bool) : (s.setKey k p).pc = s.pc := rfl
@[simp] theorem setKey_stack (k : Fin 16) (p : Bool) : (s.setKey k p).stack = s.stack := rfl
@[simp] theorem setKey_sp (k : Fin 16) (p : Bool) : (s.setKey k p).sp = s.sp := rfl
@[simp] theorem setKey_dt (k : Fin 16) (p : Bool) : (s.setKey k p).dt = s.dt := rfl
@[simp] theorem setKey_st (k : Fin 16) (p : Bool) : (s.setKey k p).st = s.st := rfl
@[simp] theorem setKey_fb (k : Fin 16) (p : Bool) : (s.setKey k p).fb = s.fb := rfl
@[simp] theorem setKey_mem (k : Fin 16) (p : Bool) : (s.setKey k p).mem = s.mem := rfl
@[simp] theorem setKey_fault (k : Fin 16) (p : Bool) : (s.setKey k p).fault = s.fault := rfl
@[simp] theorem setKey_draws (k : Fin 16) (p : Bool) : (s.setKey k p).draws = s.draws := rfl

/-! ### setMem -/

@[simp] theorem setMem_v (m : Memory) : (s.setMem m).v = s.v := rfl
@[simp] theorem setMem_i (m : Memory) : (s.setMem m).i = s.i := rfl
@[simp] theorem setMem_pc (m : Memory) : (s.setMem m).pc = s.pc := rfl
@[simp] theorem setMem_stack (m : Memory) : (s.setMem m).stack = s.stack := rfl
@[simp] theorem setMem_sp (m : Memory) : (s.setMem m).sp = s.sp := rfl
@[simp] theorem setMem_key (m : Memory) : (s.setMem m).key = s.key := rfl
@[simp] theorem setMem_dt (m : Memory) : (s.setMem m).dt = s.dt := rfl
@[simp] theorem setMem_st (m : Memory) : (s.setMem m).st = s.st := rfl
@[simp] theorem setMem_fb (m : Memory) : (s.setMem m).fb = s.fb := rfl
@[simp] theorem setMem_mem (m : Memory) : (s.setMem m).mem = m := rfl
@[simp] theorem setMem_fault (m : Memory) : (s.setMem m).fault = s.fault := rfl
@[simp] theorem setMem_draws (m : Memory) : (s.setMem m).draws = s.draws := rfl

/-! ### setFb -/

@[simp] theorem setFb_v (f : Framebuffer) : (s.setFb f).v = s.v := rfl
@[simp] theorem setFb_i (f : Framebuffer) : (s.setFb f).i = s.i := rfl
@[simp] theorem setFb_pc (f : Framebuffer) : (s.setFb f).pc = s.pc := rfl
@[simp] theorem setFb_stack (f : Framebuffer) : (s.setFb f).stack = s.stack := rfl
@[simp] theorem setFb_sp (f : Framebuffer) : (s.setFb f).sp = s.sp := rfl
@[simp] theorem setFb_key (f : Framebuffer) : (s.setFb f).key = s.key := rfl
@[simp] theorem setFb_dt (f : Framebuffer) : (s.setFb f).dt = s.dt := rfl
@[simp] theorem setFb_st (f : Framebuffer) : (s.setFb f).st = s.st := rfl
@[simp] theorem setFb_fb (f : Framebuffer) : (s.setFb f).fb = f := rfl
@[simp] theorem setFb_mem (f : Framebuffer) : (s.setFb f).mem = s.mem := rfl
@[simp] theorem setFb_fault (f : Framebuffer) : (s.setFb f).fault = s.fault := rfl
@[simp] theorem setFb_draws (f : Framebuffer) : (s.setFb f).draws = s.draws := rfl

/-! ### countDraw -/

@[simp] theorem countDraw_v : (s.countDraw).v = s.v := rfl
@[simp] theorem countDraw_i : (s.countDraw).i = s.i := rfl
@[simp] theorem countDraw_pc : (s.countDraw).pc = s.pc := rfl
@[simp] theorem countDraw_stack : (s.countDraw).stack = s.stack := rfl
@[simp] theorem countDraw_sp : (s.countDraw).sp = s.sp := rfl
@[simp] theorem countDraw_key : (s.countDraw).key = s.key := rfl
@[simp] theorem countDraw_dt : (s.countDraw).dt = s.dt := rfl
@[simp] theorem countDraw_st : (s.countDraw).st = s.st := rfl
@[simp] theorem countDraw_fb : (s.countDraw).fb = s.fb := rfl
@[simp] theorem countDraw_mem : (s.countDraw).mem = s.mem := rfl
@[simp] theorem countDraw_fault : (s.countDraw).fault = s.fault := rfl
@[simp] theorem countDraw_draws : (s.countDraw).draws = s.draws + 1 := rfl

/-! ### advancePc -/

@[simp] theorem advancePc_v : (s.advancePc).v = s.v := rfl
@[simp] theorem advancePc_i : (s.advancePc).i = s.i := rfl
@[simp] theorem advancePc_pc : (s.advancePc).pc = s.pc + 2 := rfl
@[simp] theorem advancePc_stack : (s.advancePc).stack = s.stack := rfl
@[simp] theorem advancePc_sp : (s.advancePc).sp = s.sp := rfl
@[simp] theorem advancePc_key : (s.advancePc).key = s.key := rfl
@[simp] theorem advancePc_dt : (s.advancePc).dt = s.dt := rfl
@[simp] theorem advancePc_st : (s.advancePc).st = s.st := rfl
@[simp] theorem advancePc_fb : (s.advancePc).fb = s.fb := rfl
@[simp] theorem advancePc_mem : (s.advancePc).mem = s.mem := rfl
@[simp] theorem advancePc_fault : (s.advancePc).fault = s.fault := rfl
@[simp] theorem advancePc_draws : (s.advancePc).draws = s.draws := rfl

/-! ### rewindPc -/

@[simp] theorem rewindPc_v : (s.rewindPc).v = s.v := rfl
@[simp] theorem rewindPc_i : (s.rewindPc).i = s.i := rfl
@[simp] theorem rewindPc_pc : (s.rewindPc).pc = s.pc - 2 := rfl
@[simp] theorem rewindPc_stack : (s.rewindPc).stack = s.stack := rfl
@[simp] theorem rewindPc_sp : (s.rewindPc).sp = s.sp := rfl
@[simp] theorem rewindPc_key : (s.rewindPc).key = s.key := rfl
@[simp] theorem rewindPc_dt : (s.rewindPc).dt = s.dt := rfl
@[simp] theorem rewindPc_st : (s.rewindPc).st = s.st := rfl
@[simp] theorem rewindPc_fb : (s.rewindPc).fb = s.fb := rfl
@[simp] theorem rewindPc_mem : (s.rewindPc).mem = s.mem := rfl
@[simp] theorem rewindPc_fault : (s.rewindPc).fault = s.fault := rfl
@[simp] theorem rewindPc_draws : (s.rewindPc).draws = s.draws := rfl

/-! ### push -/

@[simp] theorem push_v (w : Word) (h : s.sp.val < 16) : (s.push w h).v = s.v := rfl
@[simp] theorem push_i (w : Word) (h : s.sp.val < 16) : (s.push w h).i = s.i := rfl
@[simp] theorem push_pc (w : Word) (h : s.sp.val < 16) : (s.push w h).pc = s.pc := rfl
@[simp] theorem push_stack (w : Word) (h : s.sp.val < 16) : (s.push w h).stack = s.stack.set s.sp.val w := rfl
@[simp] theorem push_key (w : Word) (h : s.sp.val < 16) : (s.push w h).key = s.key := rfl
@[simp] theorem push_dt (w : Word) (h : s.sp.val < 16) : (s.push w h).dt = s.dt := rfl
@[simp] theorem push_st (w : Word) (h : s.sp.val < 16) : (s.push w h).st = s.st := rfl
@[simp] theorem push_fb (w : Word) (h : s.sp.val < 16) : (s.push w h).fb = s.fb := rfl
@[simp] theorem push_mem (w : Word) (h : s.sp.val < 16) : (s.push w h).mem = s.mem := rfl
@[simp] theorem push_fault (w : Word) (h : s.sp.val < 16) : (s.push w h).fault = s.fault := rfl
@[simp] theorem push_draws (w : Word) (h : s.sp.val < 16) : (s.push w h).draws = s.draws := rfl

/-! ### dropTop -/

@[simp] theorem dropTop_v : (s.dropTop).v = s.v := rfl
@[simp] theorem dropTop_i : (s.dropTop).i = s.i := rfl
@[simp] theorem dropTop_pc : (s.dropTop).pc = s.pc := rfl
@[simp] theorem dropTop_stack : (s.dropTop).stack = s.stack := rfl
@[simp] theorem dropTop_key : (s.dropTop).key = s.key := rfl
@[simp] theorem dropTop_dt : (s.dropTop).dt = s.dt := rfl
@[simp] theorem dropTop_st : (s.dropTop).st = s.st := rfl
@[simp] theorem dropTop_fb : (s.dropTop).fb = s.fb := rfl
@[simp] theorem dropTop_mem : (s.dropTop).mem = s.mem := rfl
@[simp] theorem dropTop_fault : (s.dropTop).fault = s.fault := rfl
@[simp] theorem dropTop_draws : (s.dropTop).draws = s.draws := rfl

/-! ### takeFault -/

@[simp] theorem takeFault_v (c : Fault) (a w d : Word) : (takeFault c a w d s).v = s.v := rfl
@[simp] theorem takeFault_i (c : Fault) (a w d : Word) : (takeFault c a w d s).i = s.i := rfl
@[simp] theorem takeFault_pc (c : Fault) (a w d : Word) : (takeFault c a w d s).pc = a := rfl
@[simp] theorem takeFault_stack (c : Fault) (a w d : Word) : (takeFault c a w d s).stack = s.stack := rfl
@[simp] theorem takeFault_sp (c : Fault) (a w d : Word) : (takeFault c a w d s).sp = s.sp := rfl
@[simp] theorem takeFault_key (c : Fault) (a w d : Word) : (takeFault c a w d s).key = s.key := rfl
@[simp] theorem takeFault_dt (c : Fault) (a w d : Word) : (takeFault c a w d s).dt = s.dt := rfl
@[simp] theorem takeFault_st (c : Fault) (a w d : Word) : (takeFault c a w d s).st = s.st := rfl
@[simp] theorem takeFault_fb (c : Fault) (a w d : Word) : (takeFault c a w d s).fb = s.fb := rfl
@[simp] theorem takeFault_mem (c : Fault) (a w d : Word) : (takeFault c a w d s).mem = s.mem := rfl
@[simp] theorem takeFault_fault (c : Fault) (a w d : Word) : (takeFault c a w d s).fault = some ⟨c, a, w, d⟩ := rfl
@[simp] theorem takeFault_draws (c : Fault) (a w d : Word) : (takeFault c a w d s).draws = s.draws := rfl

/-! ### setResultAndFlag -/

@[simp] theorem setResultAndFlag_v (x : Reg) (b : Byte) (c : Bool) : (s.setResultAndFlag x b c).v = (s.v.set x b).set vf (flagByte c) := rfl
@[simp] theorem setResultAndFlag_i (x : Reg) (b : Byte) (c : Bool) : (s.setResultAndFlag x b c).i = s.i := rfl
@[simp] theorem setResultAndFlag_pc (x : Reg) (b : Byte) (c : Bool) : (s.setResultAndFlag x b c).pc = s.pc := rfl
@[simp] theorem setResultAndFlag_stack (x : Reg) (b : Byte) (c : Bool) : (s.setResultAndFlag x b c).stack = s.stack := rfl
@[simp] theorem setResultAndFlag_sp (x : Reg) (b : Byte) (c : Bool) : (s.setResultAndFlag x b c).sp = s.sp := rfl
@[simp] theorem setResultAndFlag_key (x : Reg) (b : Byte) (c : Bool) : (s.setResultAndFlag x b c).key = s.key := rfl
@[simp] theorem setResultAndFlag_dt (x : Reg) (b : Byte) (c : Bool) : (s.setResultAndFlag x b c).dt = s.dt := rfl
@[simp] theorem setResultAndFlag_st (x : Reg) (b : Byte) (c : Bool) : (s.setResultAndFlag x b c).st = s.st := rfl
@[simp] theorem setResultAndFlag_fb (x : Reg) (b : Byte) (c : Bool) : (s.setResultAndFlag x b c).fb = s.fb := rfl
@[simp] theorem setResultAndFlag_mem (x : Reg) (b : Byte) (c : Bool) : (s.setResultAndFlag x b c).mem = s.mem := rfl
@[simp] theorem setResultAndFlag_fault (x : Reg) (b : Byte) (c : Bool) : (s.setResultAndFlag x b c).fault = s.fault := rfl
@[simp] theorem setResultAndFlag_draws (x : Reg) (b : Byte) (c : Bool) : (s.setResultAndFlag x b c).draws = s.draws := rfl

/-! ### maskedDraw -/

@[simp] theorem maskedDraw_v (x : Reg) (n r : Byte) : (maskedDraw x n r s).v = s.v.set x (r &&& n) := rfl
@[simp] theorem maskedDraw_i (x : Reg) (n r : Byte) : (maskedDraw x n r s).i = s.i := rfl
@[simp] theorem maskedDraw_pc (x : Reg) (n r : Byte) : (maskedDraw x n r s).pc = s.pc := rfl
@[simp] theorem maskedDraw_stack (x : Reg) (n r : Byte) : (maskedDraw x n r s).stack = s.stack := rfl
@[simp] theorem maskedDraw_sp (x : Reg) (n r : Byte) : (maskedDraw x n r s).sp = s.sp := rfl
@[simp] theorem maskedDraw_key (x : Reg) (n r : Byte) : (maskedDraw x n r s).key = s.key := rfl
@[simp] theorem maskedDraw_dt (x : Reg) (n r : Byte) : (maskedDraw x n r s).dt = s.dt := rfl
@[simp] theorem maskedDraw_st (x : Reg) (n r : Byte) : (maskedDraw x n r s).st = s.st := rfl
@[simp] theorem maskedDraw_fb (x : Reg) (n r : Byte) : (maskedDraw x n r s).fb = s.fb := rfl
@[simp] theorem maskedDraw_mem (x : Reg) (n r : Byte) : (maskedDraw x n r s).mem = s.mem := rfl
@[simp] theorem maskedDraw_fault (x : Reg) (n r : Byte) : (maskedDraw x n r s).fault = s.fault := rfl
@[simp] theorem maskedDraw_draws (x : Reg) (n r : Byte) : (maskedDraw x n r s).draws = s.draws + 1 := rfl

/-! ### loadRegs -/

@[simp] theorem loadRegs_i (x : Reg) : (s.loadRegs x).i = s.i := rfl
@[simp] theorem loadRegs_pc (x : Reg) : (s.loadRegs x).pc = s.pc := rfl
@[simp] theorem loadRegs_stack (x : Reg) : (s.loadRegs x).stack = s.stack := rfl
@[simp] theorem loadRegs_sp (x : Reg) : (s.loadRegs x).sp = s.sp := rfl
@[simp] theorem loadRegs_key (x : Reg) : (s.loadRegs x).key = s.key := rfl
@[simp] theorem loadRegs_dt (x : Reg) : (s.loadRegs x).dt = s.dt := rfl
@[simp] theorem loadRegs_st (x : Reg) : (s.loadRegs x).st = s.st := rfl
@[simp] theorem loadRegs_fb (x : Reg) : (s.loadRegs x).fb = s.fb := rfl
@[simp] theorem loadRegs_mem (x : Reg) : (s.loadRegs x).mem = s.mem := rfl
@[simp] theorem loadRegs_fault (x : Reg) : (s.loadRegs x).fault = s.fault := rfl
@[simp] theorem loadRegs_draws (x : Reg) : (s.loadRegs x).draws = s.draws := rfl

/-! ### draw -/

@[simp] theorem draw_v (l : List Nat) : (s.draw l).v = s.v.set vf (flagByte (drawCells s.fb l).2) := rfl
@[simp] theorem draw_i (l : List Nat) : (s.draw l).i = s.i := rfl
@[simp] theorem draw_pc (l : List Nat) : (s.draw l).pc = s.pc := rfl
@[simp] theorem draw_stack (l : List Nat) : (s.draw l).stack = s.stack := rfl
@[simp] theorem draw_sp (l : List Nat) : (s.draw l).sp = s.sp := rfl
@[simp] theorem draw_key (l : List Nat) : (s.draw l).key = s.key := rfl
@[simp] theorem draw_dt (l : List Nat) : (s.draw l).dt = s.dt := rfl
@[simp] theorem draw_st (l : List Nat) : (s.draw l).st = s.st := rfl
@[simp] theorem draw_fb (l : List Nat) : (s.draw l).fb = (drawCells s.fb l).1 := rfl
@[simp] theorem draw_mem (l : List Nat) : (s.draw l).mem = s.mem := rfl
@[simp] theorem draw_fault (l : List Nat) : (s.draw l).fault = s.fault := rfl
@[simp] theorem draw_draws (l : List Nat) : (s.draw l).draws = s.draws := rfl

/-! ### skipIf -/

@[simp] theorem skipIf_pc (c : Bool) : (s.skipIf c).pc = if c then s.pc + 2 else s.pc := by cases c <;> rfl
@[simp] theorem skipIf_v (c : Bool) : (s.skipIf c).v = s.v := by cases c <;> rfl
@[simp] theorem skipIf_i (c : Bool) : (s.skipIf c).i = s.i := by cases c <;> rfl
@[simp] theorem skipIf_stack (c : Bool) : (s.skipIf c).stack = s.stack := by cases c <;> rfl
@[simp] theorem skipIf_sp (c : Bool) : (s.skipIf c).sp = s.sp := by cases c <;> rfl
@[simp] theorem skipIf_key (c : Bool) : (s.skipIf c).key = s.key := by cases c <;> rfl
@[simp] theorem skipIf_dt (c : Bool) : (s.skipIf c).dt = s.dt := by cases c <;> rfl
@[simp] theorem skipIf_st (c : Bool) : (s.skipIf c).st = s.st := by cases c <;> rfl
@[simp] theorem skipIf_fb (c : Bool) : (s.skipIf c).fb = s.fb := by cases c <;> rfl
@[simp] theorem skipIf_mem (c : Bool) : (s.skipIf c).mem = s.mem := by cases c <;> rfl
@[simp] theorem skipIf_fault (c : Bool) : (s.skipIf c).fault = s.fault := by cases c <;> rfl
@[simp] theorem skipIf_draws (c : Bool) : (s.skipIf c).draws = s.draws := by cases c <;> rfl

/-! ### Reading a register -/

@[simp] theorem getV_setI (w : Word) (r : Reg) : (s.setI w).getV r = s.getV r := rfl
@[simp] theorem getV_setPc (w : Word) (r : Reg) : (s.setPc w).getV r = s.getV r := rfl
@[simp] theorem getV_setDt (b : Byte) (r : Reg) : (s.setDt b).getV r = s.getV r := rfl
@[simp] theorem getV_setSt (b : Byte) (r : Reg) : (s.setSt b).getV r = s.getV r := rfl
@[simp] theorem getV_setKey (k : Fin 16) (p : Bool) (r : Reg) : (s.setKey k p).getV r = s.getV r := rfl
@[simp] theorem getV_setMem (m : Memory) (r : Reg) : (s.setMem m).getV r = s.getV r := rfl
@[simp] theorem getV_setFb (f : Framebuffer) (r : Reg) : (s.setFb f).getV r = s.getV r := rfl
@[simp] theorem getV_countDraw (r : Reg) : (s.countDraw).getV r = s.getV r := rfl
@[simp] theorem getV_advancePc (r : Reg) : (s.advancePc).getV r = s.getV r := rfl
@[simp] theorem getV_rewindPc (r : Reg) : (s.rewindPc).getV r = s.getV r := rfl
@[simp] theorem getV_push (w : Word) (h : s.sp.val < 16) (r : Reg) : (s.push w h).getV r = s.getV r := rfl
@[simp] theorem getV_dropTop (r : Reg) : (s.dropTop).getV r = s.getV r := rfl
@[simp] theorem getV_takeFault (c : Fault) (a w d : Word) (r : Reg) : (takeFault c a w d s).getV r = s.getV r := rfl
@[simp] theorem getV_skipIf (c : Bool) (r : Reg) : (s.skipIf c).getV r = s.getV r := by cases c <;> rfl

theorem getV_setV (x r : Reg) (b : Byte) : (s.setV x b).getV r = if r = x then b else s.getV r := by
  simp only [State.getV, State.setV, Fin.getElem_fin, Vector.getElem_set, Fin.ext_iff, eq_comm]

@[simp] theorem getV_setV_same (x : Reg) (b : Byte) : (s.setV x b).getV x = b := by simp [getV_setV]

@[simp] theorem getV_setV_other {x r : Reg} (b : Byte) (h : r ≠ x) : (s.setV x b).getV r = s.getV r := by
  simp [getV_setV, h]

/-- Reading a register depends on the register file alone. -/
theorem getV_congr {s t : State} (h : t.v = s.v) (r : Reg) : t.getV r = s.getV r := by simp [State.getV, h]

/-- After a result and a flag the flag register holds the flag (R132). -/
@[simp] theorem getV_vf_setResultAndFlag (x : Reg) (b : Byte) (c : Bool) :
    (s.setResultAndFlag x b c).getV vf = flagByte c := by simp [State.setResultAndFlag]

theorem getV_setResultAndFlag (x r : Reg) (b : Byte) (c : Bool) (h : r ≠ vf) :
    (s.setResultAndFlag x b c).getV r = if r = x then b else s.getV r := by
  simp [State.setResultAndFlag, getV_setV, h]

theorem getV_maskedDraw (x r : Reg) (n b : Byte) :
    (maskedDraw x n b s).getV r = if r = x then b &&& n else s.getV r := by
  simp [maskedDraw, getV_setV]

theorem getV_draw (l : List Nat) (r : Reg) :
    (s.draw l).getV r = if r = vf then flagByte (drawCells s.fb l).2 else s.getV r := by
  simp [State.draw, getV_setV]

theorem getV_loadRegs (x k : Reg) : (s.loadRegs x).getV k =
    if k ≤ x then Memory.read s.mem (s.indexAddress k) else s.getV k := by
  simp [State.getV, State.loadRegs]

end Sys2Proof.Machine
end

