-- ==== Sys2Proof/Laws/Step.lean ====
section
/-! SUPPORT. Once and for all, what the shared operations, an instruction and a step can do. -/

namespace Sys2Proof.Machine

/-! ### Checked accesses -/

@[simp] theorem checked_none (i : Instr) (s go : State) : checked i none s go = .next go := rfl

@[simp] theorem checked_some (i : Instr) (c : Fault) (d : Nat) (s go : State) :
    checked i (some (c, d)) s go = .next (takeFault c (s.pc - 2) (encode i) (BitVec.ofNat 16 d) s) := rfl

/-- A checked instruction has its whole effect, or takes the fault found. -/
theorem checked_cases {i : Instr} {found : Option (Fault × Nat)} {s go t : State}
    (h : checked i found s go = .next t) :
    (found = none ∧ t = go) ∨
      ∃ c d, found = some (c, d) ∧ t = takeFault c (s.pc - 2) (encode i) (BitVec.ofNat 16 d) s := by
  rcases found with _ | ⟨c, d⟩
  · exact .inl ⟨rfl, by simpa using h.symm⟩
  · exact .inr ⟨c, d, rfl, by simpa using h.symm⟩

/-! ### One instruction -/

/-- Every instruction answers a next state, in every state (R242: no instruction can hang inside a step). -/
theorem exec_answers (i : Instr) (s : State) : ∃ t, exec i s = .next t := by
  cases i <;> simp only [exec]
  case ret => unfold execRet; split <;> exact ⟨_, rfl⟩
  case call => unfold execCall; split <;> exact ⟨_, rfl⟩
  case drw => unfold execDrw checked; split <;> exact ⟨_, rfl⟩
  case skp => unfold execSkp checked; split <;> exact ⟨_, rfl⟩
  case sknp => unfold execSknp checked; split <;> exact ⟨_, rfl⟩
  case ldK => unfold execLdK; split <;> exact ⟨_, rfl⟩
  case ldB => unfold execLdB checked; split <;> exact ⟨_, rfl⟩
  case stM => unfold execStM checked; split <;> exact ⟨_, rfl⟩
  case ldM => unfold execLdM checked; split <;> exact ⟨_, rfl⟩
  all_goals exact ⟨_, rfl⟩

/-- An instruction leaves FAULT as it is, or takes a fault: PC goes back to its own address and the record is latched. -/
theorem exec_completes_or_faults {i : Instr} {s t : State} (h : exec i s = .next t) :
    t.fault = s.fault ∨ ∃ c d, t = takeFault c (s.pc - 2) (encode i) d s := by
  cases i <;> simp only [exec] at h
  case ret =>
    unfold execRet at h; split at h <;> simp only [raise, Host.Outcome.next.injEq] at h <;> subst h
    · exact .inl rfl
    · exact .inr ⟨_, _, rfl⟩
  case call =>
    unfold execCall at h; split at h <;> simp only [raise, Host.Outcome.next.injEq] at h <;> subst h
    · exact .inl rfl
    · exact .inr ⟨_, _, rfl⟩
  case ldK => unfold execLdK at h; split at h <;> cases h <;> exact .inl rfl
  case drw => rcases checked_cases h with ⟨-, rfl⟩ | ⟨c, d, -, rfl⟩; exacts [.inl rfl, .inr ⟨_, _, rfl⟩]
  case ldB => rcases checked_cases h with ⟨-, rfl⟩ | ⟨c, d, -, rfl⟩; exacts [.inl rfl, .inr ⟨_, _, rfl⟩]
  case stM => rcases checked_cases h with ⟨-, rfl⟩ | ⟨c, d, -, rfl⟩; exacts [.inl rfl, .inr ⟨_, _, rfl⟩]
  case ldM => rcases checked_cases h with ⟨-, rfl⟩ | ⟨c, d, -, rfl⟩; exacts [.inl rfl, .inr ⟨_, _, rfl⟩]
  case skp => rcases checked_cases h with ⟨-, rfl⟩ | ⟨c, d, -, rfl⟩; exacts [.inl (by simp), .inr ⟨_, _, rfl⟩]
  case sknp => rcases checked_cases h with ⟨-, rfl⟩ | ⟨c, d, -, rfl⟩; exacts [.inl (by simp), .inr ⟨_, _, rfl⟩]
  case seImm | sneImm | seReg | sneReg => cases h; exact .inl (by simp)
  all_goals cases h; exact .inl rfl

/-- What an instruction does to memory: nothing, or one run of stores within 0x200 to 0xFFF (R51, R56, R57). -/
theorem exec_memory {i : Instr} {s t : State} (h : exec i s = .next t) :
    t.mem = s.mem ∨ ∃ base bs, 0x200 ≤ base ∧ base + bs.length ≤ 4096 ∧ t.mem = Memory.store s.mem base bs ∧
      ((∃ x, i = .ldB x) ∨ ∃ x, i = .stM x) := by
  cases i <;> simp only [exec] at h
  case ret => simp only [execRet] at h; split at h <;> cases h <;> exact .inl rfl
  case call => simp only [execCall] at h; split at h <;> cases h <;> exact .inl rfl
  case ldK => simp only [execLdK] at h; split at h <;> cases h <;> exact .inl rfl
  case drw | ldM | skp | sknp => rcases checked_cases h with ⟨-, rfl⟩ | ⟨c, d, -, rfl⟩ <;> simp
  case ldB x =>
    rcases checked_cases h with ⟨hf, rfl⟩ | ⟨c, d, -, rfl⟩
    · have := firstFault_write_none.1 hf
      exact .inr ⟨s.indexAddress 0, decimalDigits (s.getV x), by omega, by simp [decimalDigits]; omega, rfl,
        .inl ⟨x, rfl⟩⟩
    · exact .inl rfl
  case stM x =>
    rcases checked_cases h with ⟨hf, rfl⟩ | ⟨c, d, -, rfl⟩
    · have := firstFault_write_none.1 hf
      exact .inr ⟨s.indexAddress 0, s.regRun x, by omega, by simp [State.regRun]; omega, rfl, .inr ⟨x, rfl⟩⟩
    · exact .inl rfl
  all_goals cases h; simp

/-- What an instruction does to the return stack's entries: nothing, but for CALL's push of PC (R24, R104). -/
theorem exec_stack {i : Instr} {s t : State} (h : exec i s = .next t) :
    t.stack = s.stack ∨ ∃ (nnn : Addr12) (hs : s.sp.val < 16), i = .call nnn ∧
      t.stack = s.stack.set s.sp.val s.pc hs := by
  cases i <;> simp only [exec] at h
  case call nnn =>
    simp only [execCall] at h; split at h <;> cases h
    · exact .inr ⟨nnn, ‹_›, rfl, rfl⟩
    · exact .inl rfl
  case ret => simp only [execRet] at h; split at h <;> cases h <;> exact .inl rfl
  case ldK => simp only [execLdK] at h; split at h <;> cases h <;> exact .inl rfl
  case drw | ldM | ldB | stM | skp | sknp => rcases checked_cases h with ⟨-, rfl⟩ | ⟨c, d, -, rfl⟩ <;> simp
  all_goals cases h; simp

/-! ### One step -/

/-- The fetch reads both bytes, or faults with the lowest address that does not exist (R100). -/
theorem memRead2_eq (m : Memory) (a : Nat) : memRead2 m a =
    if a + 2 ≤ 4096 then .ok (Memory.read m a ++ Memory.read m (a + 1))
    else .error (.memoryBounds, if 4096 ≤ a then a else 4096) := by
  unfold memRead2
  split
  · rename_i f hf
    have : ¬ a + 2 ≤ 4096 := fun hc => by simp [firstFault_read_none.2 (.inr hc)] at hf
    rw [firstFault_read_some (by omega) (by omega)] at hf
    simp only [Option.some.injEq] at hf
    rw [if_neg this, hf]
  · rename_i hf
    have := firstFault_read_none.1 hf
    rw [if_pos (by omega)]

/-- The two phases before execution, as a case distinction on the state (R100, R209). -/
theorem fetchDecode_faulted {s : State} {r : FaultRecord} (h : s.fault = some r) : fetchDecode s = .error s := by
  simp [fetchDecode, h]

theorem fetchDecode_beyond {s : State} (h : s.fault = none) (hpc : 4095 ≤ s.pc.toNat) :
    fetchDecode s = .error (takeFault .memoryBounds s.pc 0x0000
      (if 4096 ≤ s.pc.toNat then s.pc else 0x1000) s) := by
  simp only [fetchDecode, h, memRead2_eq, if_neg (show ¬ s.pc.toNat + 2 ≤ 4096 by omega)]
  split <;> simp

theorem fetchDecode_within {s : State} (h : s.fault = none) (hpc : s.pc.toNat ≤ 4094) :
    fetchDecode s = match decode (fetchedWord s) with
      | .error _ => .error (takeFault .illegalInstruction s.pc (fetchedWord s) 0x0000 s)
      | .ok i => .ok (i, s.advancePc) := by
  simp only [fetchDecode, h, memRead2_eq, if_pos (show s.pc.toNat + 2 ≤ 4096 by omega)]
  rfl

/-- A step that executes `i` is `i` at the advanced PC. -/
theorem step_of_executes {s : State} {i : Instr} (h : Executes s i) : step s = exec i s.advancePc := by
  obtain ⟨h1, h2, h3⟩ := h
  simp only [step, fetchDecode_within h1 h2, h3]

/-- Everything a step can do: nothing, when FAULT is set; a fault of the fetch; a fault of the decode; or one instruction
(R100, R209). -/
theorem step_cases {s t : State} (h : step s = .next t) :
    (∃ r, s.fault = some r ∧ t = s) ∨
    (s.fault = none ∧ 4095 ≤ s.pc.toNat ∧ t = takeFault .memoryBounds s.pc 0x0000
      (if 4096 ≤ s.pc.toNat then s.pc else 0x1000) s) ∨
    (s.fault = none ∧ s.pc.toNat ≤ 4094 ∧ (∃ e, decode (fetchedWord s) = .error e) ∧
      t = takeFault .illegalInstruction s.pc (fetchedWord s) 0x0000 s) ∨
    (∃ i, Executes s i ∧ exec i s.advancePc = .next t) := by
  rcases hf : s.fault with _ | r
  · by_cases hpc : 4095 ≤ s.pc.toNat
    · simp only [step, fetchDecode_beyond hf hpc, Host.Outcome.next.injEq] at h
      exact .inr (.inl ⟨rfl, hpc, h.symm⟩)
    · have hpc' : s.pc.toNat ≤ 4094 := by omega
      simp only [step, fetchDecode_within hf hpc'] at h
      rcases hd : decode (fetchedWord s) with e | i
      · rw [hd] at h
        simp only [Host.Outcome.next.injEq] at h
        exact .inr (.inr (.inl ⟨rfl, hpc', ⟨e, rfl⟩, h.symm⟩))
      · rw [hd] at h
        exact .inr (.inr (.inr ⟨i, ⟨hf, hpc', hd⟩, h⟩))
  · simp only [step, fetchDecode_faulted hf, Host.Outcome.next.injEq] at h
    exact .inl ⟨r, rfl, h.symm⟩

/-! ### A run of steps -/

/-- A run takes its first step, then the rest. -/
theorem run_succ {s t : State} (h : step s = .next t) (k : Nat) :
    Host.Core.run Sys2Proof.core (k + 1) s = Host.Core.run Sys2Proof.core k t := by
  have hc : Sys2Proof.core.step s = .next t := h
  simp only [Host.Core.run, hc]

/-- A core whose step leaves the state as it is stays there for ever. -/
theorem run_of_fixed {s : State} (h : step s = .next s) (k : Nat) : Host.Core.run Sys2Proof.core k s = .next s := by
  induction k with
  | zero => rfl
  | succ k ih => rw [run_succ h, ih]

end Sys2Proof.Machine
end

