-- ==== Sys2Proof/Tests/Slice0.lean ====
section
/-! SUPPORT. The model's own tests: well-formedness, decoding of words written out from spec/30_encoding.md, one or two
vectors of spec/95_test_vectors.md per instruction (named in the comment beside each), and a witness for the hypotheses of
every statement. -/

namespace Sys2Proof.Tests

open Sys2Proof Sys2Proof.Machine

/-! ### Well-formedness -/

/-- A count of 16 rows has no encoding (R161 (f)); 15 rows has one. -/
theorem test_sixteen_rows_are_refused : (Instr.drw 0 1 16).wellFormed = false ∧ (Instr.drw 0 1 15).wellFormed = true := by
  decide

/-! ### Decoding: every constructor, from words written out from the patterns of R75 -/

theorem test_decode_control :
    decodeTableWord 16 0x0000 = some .nop ∧ decodeTableWord 16 0x00EE = some .ret ∧
    decodeTableWord 16 0x1204 = some (.jp 0x204) ∧ decodeTableWord 16 0x2208 = some (.call 0x208) ∧
    decodeTableWord 16 0x3A7F = some (.seImm 0xA 0x7F) ∧ decodeTableWord 16 0x4B80 = some (.sneImm 0xB 0x80) ∧
    decodeTableWord 16 0x5340 = some (.seReg 3 4) ∧ decodeTableWord 16 0x9560 = some (.sneReg 5 6) ∧
    decodeTableWord 16 0xB1FE = some (.jpV0 0x1FE) := by decide

theorem test_decode_alu :
    decodeTableWord 16 0x6C05 = some (.ldImm 0xC 0x05) ∧ decodeTableWord 16 0x71FF = some (.addImm 1 0xFF) ∧
    decodeTableWord 16 0x8120 = some (.ldReg 1 2) ∧ decodeTableWord 16 0x8341 = some (.or 3 4) ∧
    decodeTableWord 16 0x8562 = some (.and 5 6) ∧ decodeTableWord 16 0x8783 = some (.xor 7 8) ∧
    decodeTableWord 16 0x8F14 = some (.addReg 0xF 1) ∧ decodeTableWord 16 0x89A5 = some (.sub 9 0xA) ∧
    decodeTableWord 16 0x8BC7 = some (.subn 0xB 0xC) ∧ decodeTableWord 16 0xCD0F = some (.rnd 0xD 0x0F) := by decide

/-- The y field of SHR and SHL is ignored (R78). -/
theorem test_decode_shifts :
    decodeTableWord 16 0x8206 = some (.shr 2) ∧ decodeTableWord 16 0x8236 = some (.shr 2) ∧
    decodeTableWord 16 0x820E = some (.shl 2) ∧ decodeTableWord 16 0x82FE = some (.shl 2) := by decide

theorem test_decode_index_memory :
    decodeTableWord 16 0xA22A = some (.ldIdx 0x22A) ∧ decodeTableWord 16 0xF21E = some (.addIdx 2) ∧
    decodeTableWord 16 0xF129 = some (.ldF 1) ∧ decodeTableWord 16 0xF033 = some (.ldB 0) ∧
    decodeTableWord 16 0xF155 = some (.stM 1) ∧ decodeTableWord 16 0xF265 = some (.ldM 2) := by decide

theorem test_decode_display :
    decodeTableWord 16 0x00E0 = some .cls ∧ decodeTableWord 16 0xD12F = some (.drw 1 2 15) ∧
    decodeTableWord 16 0xD010 = some (.drw 0 1 0) := by decide

theorem test_decode_keys_timers :
    decodeTableWord 16 0xE39E = some (.skp 3) ∧ decodeTableWord 16 0xE4A1 = some (.sknp 4) ∧
    decodeTableWord 16 0xF407 = some (.ldVdt 4) ∧ decodeTableWord 16 0xF50A = some (.ldK 5) ∧
    decodeTableWord 16 0xF315 = some (.ldDt 3) ∧ decodeTableWord 16 0xF018 = some (.ldSt 0) := by decide

/-- The illegal words of V-FLT-1 to V-FLT-7. -/
theorem test_illegal_words :
    [0xFFFF, 0x5011, 0x8008, 0x9001, 0x00E1, 0xE19F, 0xF175].map (decodeTableWord 16) = List.replicate 7 none := by decide

/-- R53, R83: the high byte comes first; a single byte is no instruction. -/
theorem test_bytes_are_big_endian :
    encodeBytes (.ldImm 0 0x05) = [0x60, 0x05] ∧
    (match decodeBytes [0x60, 0x05, 0x12] with | .ok r => some r | .error _ => none) = some (.ldImm 0 0x05, [0x12]) ∧
    (match decodeBytes [0x60] with | .ok r => some r | .error _ => none) = none := by decide

/-! ### One step of each instruction -/

/-- The state after one step whose instruction word, stored at PC, is `w`. -/
def after (w : Nat) (s : State) : State :=
  match step (s.withFetchWord 16 w) with
  | .next t => t
  | .fault _ | .refused _ => s

/-- The reset state with up to three registers set. -/
def regs (l : List (Reg × Byte)) : State := l.foldl (fun s p => s.setV p.1 p.2) State.reset

/-- A stack of `n` return addresses, all 0x0202. -/
def stacked (n : Fin 17) (s : State) : State := { s with sp := n, stack := Vector.replicate 16 0x0202 }

/-- Bytes placed at an address. -/
def placed (a : Nat) (bytes : List Byte) (s : State) : State := s.setMem (Memory.store s.mem a bytes)

/-- The framebuffer with these pixels, as (column, row), on. -/
def pixels (l : List (Nat × Nat)) : Framebuffer := l.foldl (fun f p => f.toggle (p.2 * 64 + p.1)) Framebuffer.clear

/-- The six bytes of a fault record, as numbers. -/
def faultOf (s : State) : Option (Nat × Nat × Nat × Nat) :=
  s.fault.map (fun r => (faultCode r.cause, r.iaddr.toNat, r.word.toNat, r.daddr.toNat))

-- V-CTL-1
theorem test_nop : (after 0x0000 State.reset).pc = 0x0202 := by decide
-- V-CTL-5, V-CTL-6
theorem test_ret : (fun t : State => (t.pc, t.sp, t.stackAt 0)) (after 0x00EE ((stacked 1 State.reset).setPc 0x300)) =
    (0x0202, 0, 0x0202) := by decide
theorem test_ret_empty : (fun t : State => (t.pc, t.sp, faultOf t)) (after 0x00EE State.reset) =
    (0x0200, 0, some (3, 0x200, 0x00EE, 0)) := by decide
-- V-CTL-2
theorem test_jp : (after 0x1204 (State.reset.setPc 0x20A)).pc = 0x0204 := by decide
-- V-CTL-8, V-CTL-7
theorem test_call_sixteenth :
    (fun t : State => (t.pc, t.sp, t.stackAt 15)) (after 0x2300 ((stacked 15 State.reset).setPc 0x400)) =
    (0x0300, 16, 0x0402) := by decide
theorem test_call_full : (fun t : State => (t.pc, t.sp, faultOf t)) (after 0x2300 (stacked 16 State.reset)) =
    (0x0200, 16, some (2, 0x200, 0x2300, 0)) := by decide
-- V-CTL-9, V-CTL-10
theorem test_se_imm : (after 0x3100 (State.reset.setPc 0x208)).pc = 0x020C ∧
    (after 0x3100 ((regs [(1, 0x01)]).setPc 0x208)).pc = 0x020A := by decide
-- V-CTL-11, V-CTL-12
theorem test_sne_imm : (after 0x4207 ((regs [(2, 0x07)]).setPc 0x300)).pc = 0x0302 ∧
    (after 0x4208 ((regs [(2, 0x07)]).setPc 0x300)).pc = 0x0304 := by decide
-- V-CTL-13, V-CTL-14
theorem test_se_reg : (after 0x5340 (regs [(3, 0x10), (4, 0x10)])).pc = 0x0204 ∧
    (after 0x5340 (regs [(3, 0x10), (4, 0x11)])).pc = 0x0202 := by decide
-- V-CTL-16, V-CTL-17
theorem test_sne_reg : (after 0x9340 (regs [(3, 0x10), (4, 0x11)])).pc = 0x0204 ∧
    (after 0x9340 (regs [(3, 0x10), (4, 0x10)])).pc = 0x0202 := by decide
-- V-CTL-19
theorem test_jp_v0 : (after 0xBFFF (regs [(0, 0xFF)])).pc = 0x10FE := by decide
-- V-ALU-1 (the source's E1), V-CTL-22 (an odd PC)
theorem test_ld_imm : (fun t : State => (t.getV 0, t.pc)) (after 0x6005 State.reset) = (0x05, 0x0202) := by decide
theorem test_ld_imm_odd_pc : (fun t : State => (t.getV 0xA, t.pc)) (after 0x6A07 (State.reset.setPc 0x203)) =
    (0x07, 0x0205) := by decide
-- V-ALU-3
theorem test_add_imm : (fun t : State => (t.getV 1, t.getV vf)) (after 0x7102 (regs [(1, 0xFF), (15, 0x55)])) =
    (0x01, 0x55) := by decide
-- V-ALU-5
theorem test_ld_reg : (fun t : State => (t.getV 1, t.getV 2)) (after 0x8120 (regs [(2, 0x3C)])) = (0x3C, 0x3C) := by decide
-- V-ALU-6a to V-ALU-6c
theorem test_or : (fun t : State => (t.getV 0, t.getV vf)) (after 0x8011 (regs [(0, 0xF0), (1, 0x0F), (15, 0x55)])) =
    (0xFF, 0x55) := by decide
theorem test_and : (fun t : State => (t.getV 0, t.getV vf)) (after 0x8012 (regs [(0, 0xF0), (1, 0x3C), (15, 0x55)])) =
    (0x30, 0x55) := by decide
theorem test_xor : (fun t : State => (t.getV 0, t.getV vf)) (after 0x8013 (regs [(0, 0xF0), (1, 0x3C), (15, 0x55)])) =
    (0xCC, 0x55) := by decide
-- V-ALU-8, V-ALU-30
theorem test_add_reg : (fun t : State => (t.getV 0, t.getV vf)) (after 0x8014 (regs [(0, 0xFE), (1, 0x01), (15, 0x01)])) =
    (0xFF, 0x00) := by decide
theorem test_add_reg_to_vf : (after 0x8F14 (regs [(15, 0xFF), (1, 0x01)])).getV vf = 0x01 := by decide
-- V-ALU-11, V-ALU-12
theorem test_sub_borrow : (fun t : State => (t.getV 0, t.getV vf)) (after 0x8015 (regs [(1, 0x01), (15, 0x01)])) =
    (0xFF, 0x00) := by decide
theorem test_sub_equal : (fun t : State => (t.getV 0, t.getV vf)) (after 0x8015 (regs [(0, 0x05), (1, 0x05)])) =
    (0x00, 0x01) := by decide
-- V-ALU-14, V-ALU-16
theorem test_shr : (fun t : State => (t.getV 2, t.getV vf)) (after 0x8206 (regs [(2, 0x81)])) = (0x40, 0x01) := by decide
theorem test_shr_ignores_y : (fun t : State => (t.getV 2, t.getV 3, t.getV vf)) (after 0x8236 (regs [(2, 0x04), (3, 0xFF)])) =
    (0x02, 0xFF, 0x00) := by decide
-- V-ALU-20, V-ALU-21
theorem test_subn : (fun t : State => (t.getV 0, t.getV vf)) (after 0x8017 (regs [(0, 0x03), (1, 0x0A)])) =
    (0x07, 0x01) := by decide
theorem test_subn_borrow : (fun t : State => (t.getV 0, t.getV vf)) (after 0x8017 (regs [(0, 0x0A), (1, 0x03), (15, 0x01)])) =
    (0xF9, 0x00) := by decide
-- V-ALU-17, V-ALU-36
theorem test_shl : (fun t : State => (t.getV 2, t.getV vf)) (after 0x820E (regs [(2, 0x81)])) = (0x02, 0x01) := by decide
theorem test_shl_vf : (after 0x8F0E (regs [(15, 0x80)])).getV vf = 0x01 := by decide
-- V-ALU-23 (rnd = 0xA7); V-ALU-24: mask 0 gives 0 for every rnd
theorem test_rnd : (fun t : State => (t.getV 3, t.draws)) (maskedDraw 3 0x0F 0xA7 State.reset) = (0x07, 1) := by decide
theorem test_rnd_mask_zero : (after 0xC300 (regs [(3, 0x55)])).getV 3 = 0x00 := by
  show Config.rnd 0 &&& 0x00 = 0x00
  simp
-- V-IDX-1
theorem test_ld_idx : (after 0xA22A State.reset).i = 0x022A := by decide
-- V-IDX-3, V-IDX-4
theorem test_add_idx : (fun t : State => (t.i, t.getV vf)) (after 0xF21E ((regs [(2, 0x01), (15, 0x55)]).setI 0x0FFF)) =
    (0x1000, 0x55) := by decide
theorem test_add_idx_wraps : (after 0xF21E ((regs [(2, 0x02)]).setI 0xFFFF)).i = 0x0001 := by decide
-- V-IDX-6, V-IDX-7
theorem test_ld_f : (after 0xF129 (regs [(1, 0x0A)])).i = 0x0032 ∧ (after 0xF129 (regs [(1, 0xFF)])).i = 0x04FB := by decide
-- V-IDX-12, V-IDX-14
theorem test_ld_b : (fun t : State => [0xFFD, 0xFFE, 0xFFF].map (Memory.read t.mem))
    (after 0xF033 (placed 0xFFD [0xAA, 0xAA, 0xAA] ((regs [(0, 0x64)]).setI 0x0FFD))) = [0x01, 0x00, 0x00] := by decide
theorem test_ld_b_protected : (fun t : State => (t.pc, faultOf t)) (after 0xF033 ((regs [(0, 0x64)]).setI 0x01FE)) =
    (0x0200, some (5, 0x200, 0xF033, 0x1FE)) := by decide
-- V-IDX-16, V-IDX-19
theorem test_st_m : (fun t : State => (t.i, [0x400, 0x401, 0x402].map (Memory.read t.mem)))
    (after 0xF155 ((regs [(0, 0x11), (1, 0x22), (2, 0x33)]).setI 0x0400)) = (0x0400, [0x11, 0x22, 0x00]) := by decide
theorem test_st_m_beyond : (fun t : State => (Memory.read t.mem 0xFF1, faultOf t)) (after 0xFF55 ((regs [(0, 0x11)]).setI 0x0FF1)) =
    (0x00, some (4, 0x200, 0xFF55, 0x1000)) := by decide
-- V-IDX-22, V-IDX-24
theorem test_ld_m : (fun t : State => (t.i, t.getV 0, t.getV 1, t.getV 2, t.getV 3))
    (after 0xF265 (placed 0x300 [0x02, 0x03, 0x04, 0x05] (State.reset.setI 0x0300))) =
    (0x0300, 0x02, 0x03, 0x04, 0x00) := by decide
theorem test_ld_m_beyond : (fun t : State => (t.getV 0, faultOf t)) (after 0xFF65 ((regs [(0, 0x77)]).setI 0x0FF1)) =
    (0x77, some (4, 0x200, 0xFF65, 0x1000)) := by decide
-- V-DRW-1
theorem test_cls : (fun t : State => (t.fb, t.getV vf))
    (after 0x00E0 ((regs [(15, 0x01)]).setFb (pixels [(0, 0), (63, 31), (10, 5)]))) = (Framebuffer.clear, 0x01) := by decide
-- V-DRW-3, V-DRW-5
theorem test_drw_wraps : (fun t : State => (t.fb, t.getV vf))
    (after 0xD012 (placed 0x300 [0xC0, 0x81] ((regs [(0, 0x3F), (1, 0x1F)]).setI 0x0300))) =
    (pixels [(6, 0), (63, 0), (0, 31), (63, 31)], 0x00) := by decide
theorem test_drw_collides : (fun t : State => (t.fb, t.getV vf))
    (after 0xD011 (placed 0x300 [0xC0] ((State.reset.setI 0x0300).setFb (pixels [(1, 0), (2, 0)])))) =
    (pixels [(0, 0), (2, 0)], 0x01) := by decide
-- V-KEY-1, V-KEY-5
theorem test_skp : (after 0xE39E ((regs [(3, 0x07)]).setKey 7 true)).pc = 0x0204 ∧
    (after 0xE39E (regs [(3, 0x07)])).pc = 0x0202 := by decide
theorem test_skp_index : faultOf (after 0xE09E (regs [(0, 0x10)])) = some (6, 0x200, 0xE09E, 0x10) := by decide
-- V-KEY-3, V-KEY-4, V-KEY-6
theorem test_sknp : (after 0xE3A1 (regs [(3, 0x07)])).pc = 0x0204 ∧
    (after 0xE3A1 ((regs [(3, 0x07)]).setKey 7 true)).pc = 0x0202 := by decide
theorem test_sknp_index : faultOf (after 0xE0A1 ((regs [(0, 0xFF)]).setKey 15 true)) = some (6, 0x200, 0xE0A1, 0xFF) := by
  decide
-- V-KEY-11
theorem test_ld_vdt : (fun t : State => (t.getV 4, t.dt)) (after 0xF407 (State.reset.setDt 0x3C)) = (0x3C, 0x3C) := by decide
-- V-KEY-7, V-KEY-8
theorem test_ld_k_waits : (fun t : State => (t.pc, t.getV 3)) (after 0xF30A (regs [(3, 0x55)])) = (0x0200, 0x55) := by decide
theorem test_ld_k_lowest : (fun t : State => (t.pc, t.getV 3, t.key))
    (after 0xF30A (((regs [(3, 0x55)]).setKey 7 true).setKey 2 true)) = (0x0202, 0x02, 0x0084) := by decide
-- V-KEY-12
theorem test_ld_dt : (after 0xF315 ((regs [(3, 0x02)]).setDt 0x99)).dt = 0x02 := by decide
-- V-KEY-14
theorem test_ld_st : (after 0xF018 (State.reset.setSt 0x09)).st = 0x00 := by decide

/-! ### Fetch, decode and transactions -/

-- V-FLT-1, V-FLT-8, V-FLT-9
theorem test_illegal : faultOf (after 0xFFFF State.reset) = some (1, 0x200, 0xFFFF, 0) := by decide
theorem test_fetch_beyond : faultOf (after 0 (State.reset.setPc 0x10FE)) = some (4, 0x10FE, 0, 0x10FE) ∧
    faultOf (after 0x1234 (State.reset.setPc 0x0FFF)) = some (4, 0x0FFF, 0, 0x1000) := by decide
-- R208: a faulted core is inert, and a load does not clear FAULT
theorem test_faulted_core : (transact .step (transact (.load [0x60, 0x05]) (after 0xFFFF State.reset)).1).2 =
    .stepFault ⟨.illegalInstruction, 0x0200, 0xFFFF, 0x0000⟩ := by decide
-- R215, R225
theorem test_tick : (fun r : State × Response => (r.1.dt, r.1.st, r.2)) (transact .tick ((State.reset.setDt 0x02).setSt 0x01)) =
    (0x01, 0x00, .toneStop true) := by decide
-- R213
theorem test_load : (fun r : State × Response => ([0x1FF, 0x200, 0x201, 0x202].map (Memory.read r.1.mem), r.2))
    (transact (.load [0x60, 0x05]) State.reset) = ([0x00, 0x60, 0x05, 0x00], .loadOk) := by decide
-- R30, R60: writing the reset contents back leaves nothing listed; the two ends of the glyph table
theorem test_memory_is_canonical : Memory.write (Memory.write [] 0x300 0xAA) 0x300 0x00 = [] ∧
    Memory.write (Memory.write [] 0x301 0xBB) 0x300 0xAA = [(0x300, 0xAA), (0x301, 0xBB)] ∧
    Memory.write [] 4096 0xAA = [] ∧ glyphTable.length = 80 := by decide

/-! ### Witnesses: concrete states and operands that meet the hypotheses of each statement that has some -/

theorem witness_DecodeOfEncodeIsTheInstruction : (Instr.drw 15 15 15).wellFormed = true ∧ (Instr.ldM 15).wellFormed = true := by
  decide

theorem witness_OnlyShiftsIgnoreAField :
    decode 0x8236 = .ok (.shr 2) ∧ decode 0x82FE = .ok (.shl 2) ∧
    (decode 0x8234 = .ok (.addReg 2 3) ∧ (∀ x, Instr.addReg 2 3 ≠ .shr x) ∧ ∀ x, Instr.addReg 2 3 ≠ .shl x) ∧
    ((1 : BitVec 4) ≠ 0 ∧ (15 : BitVec 4) ≠ 0) := by
  refine ⟨rfl, rfl, ⟨rfl, ?_, ?_⟩, by decide⟩ <;> intro x h <;> cases h

theorem witness_EncodePlacesTheFields : (15 : Nat) ≤ 15 ∧ (0 : Nat) ≤ 15 := by decide

theorem witness_DecodeAgreesWithTheOpcodeMap :
    decode 0xD12F = .ok (.drw 1 2 15) ∧ decode 0xFFFF = .error .illegalInstruction := by decide

/-- The state whose next step executes the word `w`. -/
def next (w : Nat) (s : State) : State := s.withFetchWord 16 w

/-- The lowest and the highest address a word can be fetched from. -/
theorem witness_StepRunsTheDecodedInstruction :
    Executes (next 0x6A07 (State.reset.setPc 0x0000)) (.ldImm 0xA 0x07) ∧
    Executes (next 0x6A07 (State.reset.setPc 0x0FFE)) (.ldImm 0xA 0x07) := by
  refine ⟨⟨rfl, by decide, by decide⟩, ⟨rfl, by decide, by decide⟩⟩

theorem witness_FetchBeyondMemoryFaults :
    State.reset.fault = none ∧ 4095 ≤ (State.reset.setPc 0x0FFF).pc.toNat ∧ 4096 ≤ (State.reset.setPc 0x1000).pc.toNat := by
  decide

theorem witness_IllegalWordFaults :
    (next 0xFFFF State.reset).fault = none ∧ (next 0xFFFF State.reset).pc.toNat ≤ 4094 ∧
    decode (fetchedWord (next 0xFFFF State.reset)) = .error .illegalInstruction := by decide

/-- A step for each row of the table of causes, both rows of MemoryBounds. -/
theorem witness_FaultRecordsAreThoseOfTheTable :
    [after 0xFFFF State.reset, after 0x2300 (stacked 16 State.reset), after 0x00EE State.reset,
      after 0 (State.reset.setPc 0x1000), after 0xD002 (State.reset.setI 0x0FFF), after 0xF055 (State.reset.setI 0x01FF),
      after 0xE09E (regs [(0, 0x10)])].map faultOf =
    [some (1, 0x200, 0xFFFF, 0), some (2, 0x200, 0x2300, 0), some (3, 0x200, 0x00EE, 0), some (4, 0x1000, 0, 0x1000),
      some (4, 0x200, 0xD002, 0x1000), some (5, 0x200, 0xF055, 0x1FF), some (6, 0x200, 0xE09E, 0x10)] := by decide

/-- One step that completes and one that faults. -/
theorem witness_FaultingStepCommitsNothing :
    (∃ t, step (next 0x6005 State.reset) = .next t ∧ t.fault = none) ∧
    (∃ t, step (next 0x00EE State.reset) = .next t ∧ t.fault ≠ none) := ⟨⟨_, rfl, rfl⟩, ⟨_, rfl, by decide⟩⟩

theorem witness_FaultIsTerminalUntilReset :
    (after 0xFFFF State.reset).fault = some ⟨.illegalInstruction, 0x0200, 0xFFFF, 0x0000⟩ ∧
    Transaction.tick ≠ .reset ∧ Transaction.tick ≠ .step := by decide

/-- The three forms that stay in place: V-CTL-3, V-CTL-20, V-KEY-7. -/
theorem witness_OnlyThreeFormsStayInPlace :
    (Executes (next 0x1200 State.reset) (.jp 0x200) ∧ step (next 0x1200 State.reset) = .next (next 0x1200 State.reset)) ∧
    (Executes (next 0xB1FE (regs [(0, 0x02)])) (.jpV0 0x1FE) ∧
      (0x1FE : Addr12).toNat + ((next 0xB1FE (regs [(0, 0x02)])).getV 0).toNat = (next 0xB1FE (regs [(0, 0x02)])).pc.toNat) ∧
    (Executes (next 0xF30A State.reset) (.ldK 3) ∧ (next 0xF30A State.reset).key = 0) := by
  refine ⟨⟨⟨rfl, by decide, by decide⟩, rfl⟩, ⟨⟨rfl, by decide, by decide⟩, by decide⟩, ⟨rfl, by decide, by decide⟩, rfl⟩

theorem witness_SelfJumpStaysForEver : AtSelfJump (next 0x1200 State.reset) := ⟨rfl, by decide, by decide⟩

/-- The reset state meets the invariant, and its step answers a next state. -/
theorem witness_EveryStepKeepsTheInvariant : Inv State.reset ∧ ∃ t, step State.reset = .next t := by
  refine ⟨⟨by decide, fun _ _ => rfl, by decide, ?_⟩, _, rfl⟩
  intro k; revert k; decide

theorem witness_EveryTransactionKeepsTheInvariant : Inv State.reset := witness_EveryStepKeepsTheInvariant.1

theorem witness_ReachableStatesKeepLowMemory :
    Reachable (transact .step (transact (.load [0x60, 0x05]) State.reset).1).1 := .transact _ (.transact _ .reset)

theorem witness_OnlyTheListedRegistersAreWritten :
    (∃ t, exec (.addReg 0 1) State.reset = .next t) ∧ (2 : Reg) ∉ destinations (.addReg 0 1) ∧
    (3 : Reg) ∉ destinations (.ldM 2) := ⟨⟨_, rfl⟩, by decide, by decide⟩

/-- `reset` on a screen that is not clear, and a step of each of the two instructions. -/
theorem witness_FramebufferChangesOnlyByClsDrwReset :
    (transact .reset (State.reset.setFb (pixels [(1, 0)]))).1.fb ≠ (State.reset.setFb (pixels [(1, 0)])).fb ∧
    (transact .step (next 0x00E0 (State.reset.setFb (pixels [(1, 0)])))).1.fb ≠ pixels [(1, 0)] ∧
    (transact .step (next 0xD001 (placed 0x300 [0x80] (State.reset.setI 0x300)))).1.fb ≠ Framebuffer.clear := by decide

/-- For every clause an instruction that changes the element; for PC a jump, and a fault that takes it back. -/
theorem witness_EachStateElementHasItsWriters :
    (∃ t, exec (.ldImm 3 0x05) State.reset = .next t ∧ t.getV 3 ≠ State.reset.getV 3) ∧
    (∃ t, exec (.ldIdx 0x22A) State.reset = .next t ∧ t.i ≠ State.reset.i) ∧
    (∃ t, exec (.jp 0x204) State.reset = .next t ∧ t.pc ≠ State.reset.pc) ∧
    (∃ t, exec .ret State.reset = .next t ∧ t.pc ≠ State.reset.pc ∧ t.fault ≠ State.reset.fault) ∧
    (∃ t, exec (.call 0x208) State.reset = .next t ∧ t.stack ≠ State.reset.stack ∧ t.sp ≠ State.reset.sp) ∧
    (∃ t, exec .ret (stacked 1 State.reset) = .next t ∧ t.sp ≠ (stacked 1 State.reset).sp) ∧
    (∃ t, exec (.ldDt 3) (regs [(3, 0x02)]) = .next t ∧ t.dt ≠ 0) ∧
    (∃ t, exec (.ldSt 3) (regs [(3, 0x02)]) = .next t ∧ t.st ≠ 0) ∧
    (∃ t, exec .cls (State.reset.setFb (pixels [(1, 0)])) = .next t ∧ t.fb ≠ pixels [(1, 0)]) ∧
    (∃ t, exec (.stM 0) ((regs [(0, 0x11)]).setI 0x300) = .next t ∧ t.mem ≠ []) ∧
    (∃ t, exec (.rnd 3 0x0F) State.reset = .next t ∧ t.draws ≠ State.reset.draws) :=
  ⟨⟨_, rfl, by decide⟩, ⟨_, rfl, by decide⟩, ⟨_, rfl, by decide⟩, ⟨_, rfl, by decide, by decide⟩,
    ⟨_, rfl, by decide, by decide⟩, ⟨_, rfl, by decide⟩, ⟨_, rfl, by decide⟩, ⟨_, rfl, by decide⟩, ⟨_, rfl, by decide⟩,
    ⟨_, rfl, by decide⟩, ⟨_, rfl, by decide⟩⟩

/-- A store at the lowest address there may be, seen from the byte below it. -/
theorem witness_NoInstructionWritesBelowProgBase :
    (∃ t, exec (.stM 0) ((regs [(0, 0x11)]).setI 0x200) = .next t ∧ Memory.read t.mem 0x200 = 0x11) ∧ 0x1FF < 0x200 :=
  ⟨⟨_, rfl, by decide⟩, by decide⟩

theorem witness_FlagsAreZeroOrOne :
    writesFlag (.addReg 0 1) = true ∧ State.reset.fault = none ∧
    ∃ t, exec (.addReg 0 1) (regs [(0, 0xFF), (1, 0x01)]) = .next t ∧ t.fault = none ∧ t.getV vf = 0x01 :=
  ⟨rfl, rfl, _, rfl, rfl, by decide⟩

/-- One instruction for every clause: LD_VDT for ST, LD_ST for DT, LD_VDT for KEY and for FB. -/
theorem witness_DevicesAreReadOnlyByTheirInstructions :
    (∃ t, exec (.ldVdt 3) State.reset = .next t) ∧ (∃ t, exec (.ldSt 3) State.reset = .next t) ∧
    (∀ x, Instr.ldVdt 3 ≠ .ldSt x) ∧ ((∀ x, Instr.ldSt 3 ≠ .ldDt x) ∧ ∀ x, Instr.ldSt 3 ≠ .ldVdt x) ∧
    ((∀ x, Instr.ldVdt 3 ≠ .skp x) ∧ (∀ x, Instr.ldVdt 3 ≠ .sknp x) ∧ ∀ x, Instr.ldVdt 3 ≠ .ldK x) ∧
    (Instr.ldVdt 3 ≠ .cls ∧ ∀ x y n, Instr.ldVdt 3 ≠ .drw x y n) := by
  refine ⟨⟨_, rfl⟩, ⟨_, rfl⟩, ?_, ⟨?_, ?_⟩, ⟨?_, ?_, ?_⟩, ?_, ?_⟩ <;> intros <;> intro h <;> cases h

theorem witness_SteppingEmptyMemoryRunsNopsToTheEnd : (0 : Nat) ≤ 1792 ∧ (1791 : Nat) < 1792 ∧ 0x200 ≤ 0x200 := by decide

theorem witness_JumpsSetThePc : Executes State.reset .nop := ⟨rfl, by decide, by decide⟩

/-- The sixteenth call, the first, and a full stack. -/
theorem witness_CallPushesAndJumps :
    (stacked 15 State.reset).sp.val < 16 ∧ State.reset.sp.val < 16 ∧ (stacked 16 State.reset).sp.val = 16 ∧
    Executes (next 0x2300 ((stacked 15 State.reset).setPc 0x0FFE)) (.call 0x300) :=
  ⟨by decide, by decide, rfl, rfl, by decide, by decide⟩

/-- A stack of one entry, a full stack, an empty stack. -/
theorem witness_RetPopsIntoThePc :
    (stacked 1 State.reset).sp.val = (0 : Fin 16).val + 1 ∧ (stacked 16 State.reset).sp.val = (15 : Fin 16).val + 1 ∧
    State.reset.sp.val = 0 := by decide

/-- CALL at depth 15, and a state in the subroutine with other registers. -/
theorem witness_ReturnResumesAfterTheCall :
    (stacked 15 State.reset).sp.val < 16 ∧ ∃ t, exec (.call 0x300) (stacked 15 State.reset) = .next t ∧
      (t.setV 3 0x07).stack = t.stack ∧ (t.setV 3 0x07).sp = t.sp := ⟨by decide, _, rfl, rfl, rfl⟩

theorem witness_SkipsCompareRegisters : (1 : BitVec 4) ≠ 0 := by decide

/-- The lowest and highest legal I, the lowest I beyond memory, the highest protected I. -/
theorem witness_DecimalDigitsAreStored :
    (0x200 ≤ (State.reset.setI 0x0200).indexAddress 0 ∧ (State.reset.setI 0x0200).indexAddress 2 < 4096) ∧
    (0x200 ≤ (State.reset.setI 0x0FFD).indexAddress 0 ∧ (State.reset.setI 0x0FFD).indexAddress 2 < 4096) ∧
    4096 ≤ (State.reset.setI 0x0FFE).indexAddress 2 ∧ (State.reset.setI 0x01FF).indexAddress 0 < 0x200 := by decide

theorem witness_RegistersAreStored :
    (0x200 ≤ (State.reset.setI 0x0200).indexAddress 0 ∧ (State.reset.setI 0x0200).indexAddress (15 : Reg).val < 4096) ∧
    (0x200 ≤ (State.reset.setI 0x0FF0).indexAddress 0 ∧ (State.reset.setI 0x0FF0).indexAddress (15 : Reg).val < 4096) ∧
    4096 ≤ (State.reset.setI 0x0FF1).indexAddress (15 : Reg).val ∧ (State.reset.setI 0x01FF).indexAddress 0 < 0x200 := by
  decide

theorem witness_RegistersAreLoaded :
    (State.reset.setI 0x0FF0).i.toNat + (15 : Reg).val < 4096 ∧ State.reset.i.toNat + (0 : Reg).val < 4096 ∧
    4096 ≤ (State.reset.setI 0x0FF1).i.toNat + (15 : Reg).val ∧ 4096 ≤ (State.reset.setI 0x1000).i.toNat + (0 : Reg).val := by
  decide

theorem witness_FetchSeesTheStoredWord :
    0 + 1 ≤ (1 : Reg).val ∧ (State.reset.setI 0x0208).fault = none ∧ 0x200 ≤ (State.reset.setI 0x0208).i.toNat ∧
    (State.reset.setI 0x0208).i.toNat + (1 : Reg).val < 4096 ∧
    (∃ t, exec (.stM 1) (State.reset.setI 0x0208) = .next t) ∧ (0x0208 : Word).toNat = (State.reset.setI 0x0208).i.toNat + 0 :=
  ⟨by decide, rfl, by decide, by decide, ⟨_, rfl⟩, rfl⟩

/-- No rows at any I; fifteen rows that end with memory; two rows of which the second lies beyond it. -/
theorem witness_DrawTogglesTheCellsUnderTheSprite :
    ((0 : Nat) ≤ 15 ∧ ((0 : Nat) = 0 ∨ (State.reset.setI 0xFFFF).i.toNat + 0 ≤ 4096)) ∧
    ((15 : Nat) ≤ 15 ∧ (State.reset.setI 0x0FF1).i.toNat + 15 ≤ 4096) ∧
    (1 ≤ 2 ∧ 2 ≤ 15 ∧ 4096 ≤ (State.reset.setI 0x0FFF).i.toNat + (2 - 1)) ∧
    UnderSprite (placed 0x300 [0x80] (State.reset.setI 0x300)) 0 0 1 0 := by
  refine ⟨by decide, by decide, by decide, 0, 0, by decide⟩

/-- V-DRW-2's sprite: the second draw is made by the instruction after the first. -/
theorem witness_DrawingTwiceRestoresTheFramebuffer :
    ∃ t u, exec (.drw 0 1 1) (placed 0x300 [0xA5] ((regs [(0, 0x02), (1, 0x03)]).setI 0x300)) = .next t ∧
      exec (.drw 0 1 1) t.advancePc = .next u ∧ t.advancePc.fb = t.fb ∧ u.getV vf = 0x01 ∧
      (placed 0x300 [0xA5] ((regs [(0, 0x02), (1, 0x03)]).setI 0x300)).fb.cell 194 = false ∧ t.fb.cell 194 = true :=
  ⟨_, _, rfl, rfl, rfl, by decide, by decide, by decide⟩

/-- The state of V-DRW-6a: a sprite of one pixel at (0, 0), which is on, as is (1, 0). -/
def lit : State := placed 0x300 [0x80] ((State.reset.setI 0x300).setFb (pixels [(0, 0), (1, 0)]))

/-- V-DRW-6a and V-DRW-6: every set bit falls on a pixel that is on, so that the first draw turns nothing on. -/
theorem witness_DrawingTwiceOnLitPixels :
    ∃ t u, exec (.drw 0 1 1) lit = .next t ∧ exec (.drw 0 1 1) t.advancePc = .next u ∧
      UnderSprite lit 0 1 1 0 ∧ (∀ k, k < 2048 → UnderSprite lit 0 1 1 k → lit.fb.cell k = true) ∧
      (∀ k, k < 2048 → lit.fb.cell k = false → t.fb.cell k = false) ∧ t.getV vf = 0x01 ∧ u.getV vf = 0x00 := by
  refine ⟨_, _, rfl, rfl, ⟨0, 0, by decide⟩, ?_, ?_, by decide, by decide⟩
  · rintro k - ⟨r, c, hr, hc, hb, rfl⟩
    obtain rfl : r = 0 := by omega
    revert c
    decide
  · intro k hk h
    have hk0 : k ≠ 0 := by rintro rfl; revert h; decide
    show (lit.fb.toggle 0).cell k = false
    simp [cell_toggle _ _ _ hk, h, hk0]

/-- V-DRW-14's sprite with no set bit, drawn twice. -/
theorem witness_DrawingTwiceWithNoSetBit :
    ∃ t u, exec (.drw 0 1 1) ((regs [(15, 0x01)]).setI 0x300) = .next t ∧ exec (.drw 0 1 1) t.advancePc = .next u ∧
      (∀ k, ¬ UnderSprite ((regs [(15, 0x01)]).setI 0x300) 0 1 1 k) ∧ t.getV vf = 0x00 ∧ u.getV vf = 0x00 := by
  refine ⟨_, _, rfl, rfl, ?_, by decide, by decide⟩
  rintro k ⟨r, c, hr, hc, hb, -⟩
  obtain rfl : r = 0 := by omega
  revert c
  decide

theorem witness_DrawWrapsAtTheCorner :
    (regs [(0, 63), (1, 31)]).getV 0 = 63 ∧ (regs [(0, 63), (1, 31)]).getV 1 = 31 ∧
    (placed 0x300 [0x80] ((regs [(0, 63), (1, 31)]).setI 0x300)).i.toNat + 1 ≤ 4096 ∧
    (Memory.read (placed 0x300 [0x80] ((regs [(0, 63), (1, 31)]).setI 0x300)).mem 0x300).getLsbD 7 = true := by decide

/-- The indices 15 and 16. -/
theorem witness_KeySkipsTestTheNamedKey :
    ((regs [(3, 0x0F)]).getV 3).toNat ≤ 15 ∧ 15 < ((regs [(3, 0x10)]).getV 3).toNat := by decide

/-- Key 2 the lowest of two; no key; and a step that waits. -/
theorem witness_KeyWaitTakesTheLowestKey :
    (((State.reset.setKey 7 true).setKey 2 true).key.getLsbD 2 = true ∧
      ∀ j, j < 2 → ((State.reset.setKey 7 true).setKey 2 true).key.getLsbD j = false) ∧
    (∀ k : Fin 16, (next 0xF30A State.reset).key.getLsbD k = false) ∧ Executes (next 0xF30A State.reset) (.ldK 3) := by
  refine ⟨by decide, by decide, rfl, by decide, by decide⟩

theorem witness_ResetGivesTheResetValues : State.reset = State.reset := rfl

/-- The longest program, and one byte more. -/
theorem witness_LoadCopiesOrRejects :
    (List.replicate 3584 (0x00 : Byte)).length ≤ 3584 ∧ 3584 < (List.replicate 3585 (0x00 : Byte)).length := by
  simp only [List.length_replicate]; decide

theorem witness_TickCountsBothTimersDown : (transact .tick (State.reset.setSt 0x01)).2 = .toneStop true := by decide

theorem witness_SetKeySetsOneKey : (3 : Fin 16) ≠ 2 := by decide

theorem witness_FramebufferReadChangesNothing : 31 < 32 ∧ 63 < 64 := by decide

end Sys2Proof.Tests
end

section
/-! PROOFS. The state elements: their values at reset, the instructions that write each of them, and the instructions that
read the devices (spec/10_state.md). -/

namespace Sys2Proof.Machine

/-! ### The reset values (R33) -/

@[simp] theorem getV_reset (r : Reg) : State.reset.getV r = 0x00 := by simp [State.getV, State.reset]

@[simp] theorem stackAt_reset (k : Fin 16) : State.reset.stackAt k = 0x0000 := by simp [State.stackAt, State.reset]

@[simp] theorem keyDown_reset (k : Nat) : State.reset.keyDown k = false := by simp [State.keyDown, State.reset]

/-- Memory at reset lists nothing, so every address reads as unlisted (R30). -/
@[simp] theorem read_reset (a : Nat) : Memory.read State.reset.mem a = Memory.unlisted a := rfl

/-- Settles O18: reset memory lists nothing, PC is 0x200, and every stack entry is 0. -/
theorem invariantHoldsAtReset : Obligations.InvariantHoldsAtReset where
  memory_wf := reset_mem_wf
  low_memory a _ := read_reset a
  pc_bound := by decide
  stack_bound k := by simp

/-- Power-on and the reset transaction leave the same state, but for the count of random bytes. -/
theorem eq_reset_but_draws {s t : State} (h : s = State.reset ∨ s = (transact .reset t).1) :
    ∃ n, s = { State.reset with draws := n } := by
  rcases h with rfl | rfl
  · exact ⟨0, rfl⟩
  · exact ⟨t.draws, rfl⟩

/-- Settles O51: the state is the reset state but for its count of random bytes, which no clause speaks of. -/
theorem resetGivesTheResetValues : Obligations.ResetGivesTheResetValues := by
  intro s t h
  obtain ⟨n, rfl⟩ := eq_reset_but_draws h
  exact ⟨getV_reset, rfl, rfl, stackAt_reset, rfl, fun k => keyDown_reset k, rfl, rfl, fun k _ => cell_clear k,
    fun _ ha => unlisted_glyph ha, fun _ ha _ => unlisted_beyond ha, rfl⟩

/-! ### The writers of each state element (R20 to R31) -/

/-- The shapes of update of an instruction `i` from `s`: each rule is one way to change the state, with the instructions
that have it. The values written are left open, so this says which elements change, not to what. -/
inductive Effect (s : State) (i : Instr) : State → Prop
  | unchanged : Effect s i s
  | setV (x : Reg) (b : Byte) : x ∈ destinations i → Effect s i (s.setV x b)
  | setResultAndFlag (x : Reg) (b : Byte) (c : Bool) : x ∈ destinations i → vf ∈ destinations i →
      Effect s i (s.setResultAndFlag x b c)
  | maskedDraw (x : Reg) (nn b : Byte) : i = .rnd x nn → Effect s i (maskedDraw x nn b s)
  | loadRegs (x : Reg) : i = .ldM x → Effect s i (s.loadRegs x)
  | setI (w : Word) : (∃ nnn, i = .ldIdx nnn) ∨ (∃ x, i = .addIdx x) ∨ (∃ x, i = .ldF x) → Effect s i (s.setI w)
  | setPc (w : Word) : writesPc i = true → Effect s i (s.setPc w)
  | skipIf (c : Bool) : writesPc i = true → Effect s i (s.skipIf c)
  | push (nnn : Addr12) (hs : s.sp.val < 16) : i = .call nnn → Effect s i ((s.push s.pc hs).setPc (immAddress nnn))
  | dropTop (hs : 0 < s.sp.val) : i = .ret → Effect s i (s.dropTop.setPc (s.top hs))
  | setDt (x : Reg) (b : Byte) : i = .ldDt x → Effect s i (s.setDt b)
  | setSt (x : Reg) (b : Byte) : i = .ldSt x → Effect s i (s.setSt b)
  | setFb (f : Framebuffer) : i = .cls → Effect s i (s.setFb f)
  | draw (x y : Reg) (n : Nat) (cells : List Nat) : i = .drw x y n → Effect s i (s.draw cells)
  | setMem (m : Memory) : (∃ x, i = .ldB x) ∨ (∃ x, i = .stM x) → Effect s i (s.setMem m)
  | takeFault (c : Fault) (a w d : Word) : canFault i = true → Effect s i (takeFault c a w d s)

/-- With no key down LD_K rewinds PC and waits (R172). -/
theorem execLdK_none {x : Reg} {s : State} (h : s.lowestKey = none) : execLdK x s = .next s.rewindPc := by
  simp only [execLdK, h]

/-- With a key down LD_K takes the lowest (R172). -/
theorem execLdK_some {x : Reg} {s : State} {k : Nat} (h : s.lowestKey = some k) :
    execLdK x s = .next (s.setV x (BitVec.ofNat 8 k)) := by
  simp only [execLdK, h]

/-- A checked access has the effect it guards, or takes a fault. -/
theorem effect_of_checked {i : Instr} {found : Option (Fault × Nat)} {s go t : State} (hi : canFault i = true)
    (hgo : Effect s i go) (h : checked i found s go = .next t) : Effect s i t := by
  rcases checked_cases h with ⟨-, rfl⟩ | ⟨c, d, -, rfl⟩
  · exact hgo
  · exact .takeFault _ _ _ _ hi

/-- What an instruction does to the state, whether it completes or faults, is one of the shapes of `Effect`. -/
theorem exec_effect {i : Instr} {s t : State} (h : exec i s = .next t) : Effect s i t := by
  cases i <;> simp only [exec] at h
  case nop => cases h; exact .unchanged
  case cls => cases h; exact .setFb _ rfl
  case ret =>
    unfold execRet at h; split at h <;> cases h
    · exact .dropTop ‹_› rfl
    · exact .takeFault _ _ _ _ rfl
  case call =>
    unfold execCall at h; split at h <;> cases h
    · exact .push _ ‹_› rfl
    · exact .takeFault _ _ _ _ rfl
  case ldK =>
    rcases hk : s.lowestKey with _ | k
    · rw [execLdK_none hk] at h; cases h; exact .setPc _ rfl
    · rw [execLdK_some hk] at h; cases h; exact .setV _ _ (by simp [destinations])
  case jp | jpV0 => cases h; exact .setPc _ rfl
  case seImm | sneImm | seReg | sneReg => cases h; exact .skipIf _ rfl
  case skp | sknp => exact effect_of_checked rfl (.skipIf _ rfl) h
  case ldImm | addImm | ldReg | or | and | xor | ldVdt => cases h; exact .setV _ _ (by simp [destinations])
  case addReg | sub | subn | shr | shl =>
    cases h; exact .setResultAndFlag _ _ _ (by simp [destinations]) (by simp [destinations])
  case rnd => cases h; exact .maskedDraw _ _ _ rfl
  case ldIdx => cases h; exact .setI _ (.inl ⟨_, rfl⟩)
  case addIdx => cases h; exact .setI _ (.inr (.inl ⟨_, rfl⟩))
  case ldF => cases h; exact .setI _ (.inr (.inr ⟨_, rfl⟩))
  case ldDt => cases h; exact .setDt _ _ rfl
  case ldSt => cases h; exact .setSt _ _ rfl
  case drw => exact effect_of_checked rfl (.draw _ _ _ _ rfl) h
  case ldB => exact effect_of_checked rfl (.setMem _ (.inl ⟨_, rfl⟩)) h
  case stM => exact effect_of_checked rfl (.setMem _ (.inr ⟨_, rfl⟩)) h
  case ldM => exact effect_of_checked rfl (.loadRegs _ rfl) h

section
variable {i : Instr} {s t : State} (h : exec i s = .next t)
include h

theorem getV_of_exec {r : Reg} (hr : r ∉ destinations i) : t.getV r = s.getV r := by
  cases exec_effect h with
  | setV x b hx => exact getV_setV_other s b (ne_of_mem_of_not_mem hx hr).symm
  | setResultAndFlag x b c hx hvf =>
    rw [getV_setResultAndFlag s x r b c (ne_of_mem_of_not_mem hvf hr).symm,
      if_neg (ne_of_mem_of_not_mem hx hr).symm]
  | maskedDraw x nn b hi =>
    subst hi
    rw [getV_maskedDraw, if_neg (by simpa [destinations] using hr)]
  | loadRegs x hi =>
    subst hi
    rw [getV_loadRegs, if_neg (by simpa [destinations] using hr)]
  | draw x y n cells hi =>
    subst hi
    rw [getV_draw, if_neg (by simpa [destinations] using hr)]
  | _ => simp

theorem i_writers (hc : t.i ≠ s.i) : (∃ nnn, i = .ldIdx nnn) ∨ (∃ x, i = .addIdx x) ∨ (∃ x, i = .ldF x) := by
  cases exec_effect h with
  | setI w hi => exact hi
  | _ => simp at hc

theorem pc_writers (hc : t.pc ≠ s.pc) : writesPc i = true ∨ (canFault i = true ∧ t.fault ≠ none) := by
  cases exec_effect h with
  | setPc w hi | skipIf c hi => exact .inl hi
  | push nnn hs hi | dropTop hs hi => exact .inl (hi ▸ rfl)
  | takeFault c a w d hi => exact .inr ⟨hi, by simp⟩
  | _ => simp at hc

theorem sp_writers (hc : t.sp ≠ s.sp) : (∃ nnn, i = .call nnn) ∨ i = .ret := by
  cases exec_effect h with
  | push nnn hs hi => exact .inl ⟨nnn, hi⟩
  | dropTop hs hi => exact .inr hi
  | _ => simp at hc

theorem key_of_exec : t.key = s.key := by cases exec_effect h <;> simp

theorem dt_writers (hc : t.dt ≠ s.dt) : ∃ x, i = .ldDt x := by
  cases exec_effect h with
  | setDt x b hi => exact ⟨x, hi⟩
  | _ => simp at hc

theorem st_writers (hc : t.st ≠ s.st) : ∃ x, i = .ldSt x := by
  cases exec_effect h with
  | setSt x b hi => exact ⟨x, hi⟩
  | _ => simp at hc

theorem fb_writers (hc : t.fb ≠ s.fb) : i = .cls ∨ ∃ x y n, i = .drw x y n := by
  cases exec_effect h with
  | setFb f hi => exact .inl hi
  | draw x y n cells hi => exact .inr ⟨x, y, n, hi⟩
  | _ => simp at hc

theorem fault_writers (hc : t.fault ≠ s.fault) : canFault i = true := by
  cases exec_effect h with
  | takeFault c a w d hi => exact hi
  | _ => simp at hc

theorem draws_writers (hc : t.draws ≠ s.draws) : ∃ x nn, i = .rnd x nn := by
  cases exec_effect h with
  | maskedDraw x nn b hi => exact ⟨x, nn, hi⟩
  | _ => simp at hc

theorem stack_writers (hc : t.stack ≠ s.stack) : ∃ nnn, i = .call nnn := by
  obtain hs | ⟨nnn, -, hi, -⟩ := exec_stack h
  · exact absurd hs hc
  · exact ⟨nnn, hi⟩

theorem mem_writers (hc : t.mem ≠ s.mem) : (∃ x, i = .ldB x) ∨ (∃ x, i = .stM x) := by
  obtain hm | ⟨-, -, -, -, -, hi⟩ := exec_memory h
  · exact absurd hm hc
  · exact hi

end

/-- Settles O21: every shape of update writes registers of the table of R20 alone. -/
theorem onlyTheListedRegistersAreWritten : Obligations.OnlyTheListedRegistersAreWritten :=
  fun _ _ _ h _ hr => getV_of_exec h hr

/-- Settles O23: one lemma per state element, each by the shapes of update that touch it. -/
theorem eachStateElementHasItsWriters : Obligations.EachStateElementHasItsWriters :=
  fun _ _ _ h => ⟨fun _ hc => by_contra fun hr => hc (getV_of_exec h hr), i_writers h, pc_writers h, stack_writers h,
    sp_writers h, key_of_exec h, dt_writers h, st_writers h, fb_writers h, mem_writers h, fault_writers h, draws_writers h⟩

/-! ### The flag register (R21) -/

theorem flagByte_zero_or_one (c : Bool) : flagByte c = 0x00 ∨ flagByte c = 0x01 := by cases c <;> simp [flagByte]

/-- What a flag-writing instruction leaves in VF is a flag, unless it takes a fault. -/
theorem vf_of_flag_writer {i : Instr} {s t : State} (hi : writesFlag i = true) (h : exec i s = .next t)
    (hf : t.fault = none) : ∃ c, t.getV vf = flagByte c := by
  cases i <;> simp only [exec] at h
  case addReg | sub | shr | subn | shl => cases h; exact ⟨_, getV_vf_setResultAndFlag ..⟩
  case drw =>
    rcases checked_cases h with ⟨-, rfl⟩ | ⟨c, d, -, rfl⟩
    · exact ⟨_, by rw [getV_draw, if_pos rfl]⟩
    · simp at hf
  all_goals simp [writesFlag] at hi

/-- Settles O25: the value is a `flagByte`, of the carry, the borrow, the bit shifted out or the collision. -/
theorem flagsAreZeroOrOne : Obligations.FlagsAreZeroOrOne := by
  intro i s t hi _ h hf
  obtain ⟨c, hc⟩ := vf_of_flag_writer hi h hf
  rw [hc]
  exact flagByte_zero_or_one c

/-! ### The readers of the devices (R26 to R29) -/

/-- A change of the devices alone: what becomes of ST, DT, KEY and FB. -/
structure DeviceMap where
  st : Byte → Byte := id
  dt : Byte → Byte := id
  key : BitVec 16 → BitVec 16 := id
  fb : Framebuffer → Framebuffer := id

/-- The state with its devices changed. -/
def DeviceMap.apply (m : DeviceMap) (s : State) : State :=
  { s with st := m.st s.st, dt := m.dt s.dt, key := m.key s.key, fb := m.fb s.fb }

/-- The change keeps every device that the instruction reads or writes. -/
structure DeviceMap.Spares (m : DeviceMap) (i : Instr) : Prop where
  st : (∃ x, i = .ldSt x) → m.st = id
  dt : (∃ x, i = .ldDt x ∨ i = .ldVdt x) → m.dt = id
  key : (∃ x, i = .skp x ∨ i = .sknp x ∨ i = .ldK x) → m.key = id
  fb : (i = .cls ∨ ∃ x y n, i = .drw x y n) → m.fb = id

theorem skipIf_apply (m : DeviceMap) (s : State) (c : Bool) : (m.apply s).skipIf c = m.apply (s.skipIf c) := by
  cases c <;> rfl

/-- The checks of an access do not look at the devices, and fault entry leaves them. -/
theorem checked_apply {m : DeviceMap} {i : Instr} {found : Option (Fault × Nat)} {s go t : State}
    (h : checked i found s go = .next t) : checked i found (m.apply s) (m.apply go) = .next (m.apply t) := by
  rcases checked_cases h with ⟨rfl, rfl⟩ | ⟨c, d, rfl, rfl⟩ <;> rfl

/-- An instruction commutes with every change of the devices that it neither reads nor writes. -/
theorem exec_apply {m : DeviceMap} {i : Instr} {s t : State} (hm : m.Spares i) (h : exec i s = .next t) :
    exec i (m.apply s) = .next (m.apply t) := by
  obtain ⟨st, dt, key, fb⟩ := m
  obtain ⟨hst, hdt, hkey, hfb⟩ := hm
  cases i <;> simp only [exec] at h ⊢
  case cls => cases h; cases hfb (.inl rfl); rfl
  case ret =>
    unfold execRet at h ⊢; split at h <;> cases h
    · exact dif_pos ‹_›
    · exact dif_neg ‹_›
  case call =>
    unfold execCall at h ⊢; split at h <;> cases h
    · exact dif_pos ‹_›
    · exact dif_neg ‹_›
  case drw => cases hfb (.inr ⟨_, _, _, rfl⟩); exact checked_apply h
  case skp => cases hkey ⟨_, .inl rfl⟩; rw [execSkp, ← checked_apply h, ← skipIf_apply]; rfl
  case sknp => cases hkey ⟨_, .inr (.inl rfl)⟩; rw [execSknp, ← checked_apply h, ← skipIf_apply]; rfl
  case ldK =>
    cases hkey ⟨_, .inr (.inr rfl)⟩
    rcases hk : s.lowestKey with _ | k
    · rw [execLdK_none hk] at h; cases h; exact execLdK_none hk
    · rw [execLdK_some hk] at h; cases h; exact execLdK_some hk
  case ldVdt => cases h; cases hdt ⟨_, .inr rfl⟩; rfl
  case ldDt => cases h; cases hdt ⟨_, .inl rfl⟩; rfl
  case ldSt => cases h; cases hst ⟨_, rfl⟩; rfl
  case ldB | stM | ldM => exact checked_apply h
  case seImm | sneImm | seReg | sneReg => cases h; exact congrArg _ (skipIf_apply _ s _)
  all_goals cases h; rfl

/-- Settles O26: each clause changes one device, which the instruction neither reads nor writes. -/
theorem devicesAreReadOnlyByTheirInstructions : Obligations.DevicesAreReadOnlyByTheirInstructions := by
  intro i s t h
  refine ⟨fun hst b => ?_, fun hdt hvdt b => ?_, fun hskp hsknp hk k => ?_, fun hcls hdrw f => ?_⟩
  · have hm : ({ st := fun _ => b } : DeviceMap).Spares i :=
      ⟨fun ⟨x, hx⟩ => absurd hx (hst x), fun _ => rfl, fun _ => rfl, fun _ => rfl⟩
    exact exec_apply hm h
  · have hm : ({ dt := fun _ => b } : DeviceMap).Spares i :=
      ⟨fun _ => rfl, fun ⟨x, hx⟩ => (hx.elim (hdt x) (hvdt x)).elim, fun _ => rfl, fun _ => rfl⟩
    exact exec_apply hm h
  · have hm : ({ key := fun _ => k } : DeviceMap).Spares i :=
      ⟨fun _ => rfl, fun _ => rfl, fun ⟨x, hx⟩ => (hx.elim (hskp x) (·.elim (hsknp x) (hk x))).elim, fun _ => rfl⟩
    exact exec_apply hm h
  · have hm : ({ fb := fun _ => f } : DeviceMap).Spares i :=
      ⟨fun _ => rfl, fun _ => rfl, fun _ => rfl, fun hx => (hx.elim hcls fun ⟨x, y, n, hd⟩ => hdrw x y n hd).elim⟩
    exact exec_apply hm h

end Sys2Proof.Machine
end

section
/-! PROOFS. Memory: no instruction writes below 0x200, the next fetch sees what a store left, and the invariant that every
step keeps (spec/20_memory.md). -/

namespace Sys2Proof.Machine

/-! ### What an instruction keeps of memory (R51, R57) -/

section
variable {i : Instr} {s t : State} (h : exec i s = .next t)
include h

/-- The stores of an instruction begin at 0x200 or above, so the bytes below are outside them. -/
theorem read_low_of_exec {a : Nat} (ha : a < 0x200) : Memory.read t.mem a = Memory.read s.mem a := by
  obtain hm | ⟨base, bs, hbase, -, hm, -⟩ := exec_memory h
  · rw [hm]
  · rw [hm, read_store_outside bs s.mem base a (.inl (by omega))]

theorem memory_wf_of_exec (hs : Memory.wf s.mem) : Memory.wf t.mem := by
  obtain hm | ⟨base, bs, -, -, hm, -⟩ := exec_memory h
  · rwa [hm]
  · rw [hm]; exact store_wf base bs hs

end

/-- Settles O24: the stores of every instruction lie at 0x200 or above. -/
theorem noInstructionWritesBelowProgBase : Obligations.NoInstructionWritesBelowProgBase :=
  fun _ _ _ _ h ha => read_low_of_exec h ha

/-! ### The next fetch sees a stored word (R53, R62) -/

@[simp] theorem length_regRun (s : State) (x : Reg) : (s.regRun x).length = x.val + 1 := by
  simp [State.regRun]

theorem getElem_regRun (s : State) (x k : Reg) (hk : k.val < (s.regRun x).length) :
    (s.regRun x)[k.val] = s.getV k := by
  simp [State.regRun, State.getV]

/-- ST_M within 0x200 to 0xFFF stores its registers (R144). -/
theorem execStM_within {x : Reg} {s : State} (hlo : 0x200 ≤ s.i.toNat) (hhi : s.i.toNat + x.val < 4096) :
    execStM x s = .next (s.setMem (Memory.store s.mem s.i.toNat (s.regRun x))) := by
  have hf : firstFault checkWrite s.i.toNat (x.val + 1) = none := firstFault_write_none.2 (.inr ⟨hlo, by omega⟩)
  simp only [execStM, State.indexAddress, Nat.add_zero, hf, checked_none]

/-- A stored run of registers reads back as the registers. -/
theorem read_store_regRun (s : State) {x k : Reg} {base : Nat} (hk : k ≤ x) (hhi : base + x.val < 4096) :
    Memory.read (Memory.store s.mem base (s.regRun x)) (base + k.val) = s.getV k := by
  have hlen : k.val < (s.regRun x).length := by simp; omega
  rw [read_store_inside _ _ _ _ hlen (by simp; omega), getElem_regRun]

/-- Settles O43: both bytes at the fetch address lie in the stored run, and the first of them is the high one. -/
theorem fetchSeesTheStoredWord : Obligations.FetchSeesTheStoredWord := by
  intro x s t k hk _ hlo hhi h pc hpc
  have ht : s.setMem (Memory.store s.mem s.i.toNat (s.regRun x)) = t := by
    simpa [exec, execStM_within hlo hhi] using h
  subst ht
  have h0 := read_store_regRun s (k := ⟨k, by omega⟩) (Fin.le_def.2 (Nat.le_of_lt hk)) hhi
  have h1 := read_store_regRun s (k := ⟨k + 1, by omega⟩) (Fin.le_def.2 hk) hhi
  simp only [fetchedWord, setMem_mem, hpc, Nat.add_assoc, h0, h1]

/-! ### What an instruction does to PC (R23) and to the return stack (R104) -/

/-- The values an instruction at `s` may leave in PC: the advanced PC, a second advance (R101), its own address (LD_K with no
key down, R172, and fault entry, R207), a jump's target (R103, R104, R110), or an entry of the stack (R102). -/
inductive NextPc (s : State) : Word → Prop
  | kept : NextPc s s.pc
  | skipped : NextPc s (s.pc + 2)
  | own : NextPc s (s.pc - 2)
  | jump (nnn : Addr12) : NextPc s (immAddress nnn)
  | jumpBy (nnn : Addr12) (b : Byte) : NextPc s (immAddress nnn + byteWord b)
  | popped (k : Fin 16) : NextPc s (s.stackAt k)

theorem nextPc_of_skipIf (s : State) (c : Bool) : NextPc s (s.skipIf c).pc := by
  cases c
  · exact .kept
  · exact .skipped

/-- A checked access leaves the PC of the effect it guards, or goes back to its own address. -/
theorem nextPc_of_checked {i : Instr} {found : Option (Fault × Nat)} {s go t : State} (hgo : NextPc s go.pc)
    (h : checked i found s go = .next t) : NextPc s t.pc := by
  rcases checked_cases h with ⟨-, rfl⟩ | ⟨c, d, -, rfl⟩
  · exact hgo
  · exact .own

theorem nextPc_of_exec {i : Instr} {s t : State} (h : exec i s = .next t) : NextPc s t.pc := by
  cases i <;> simp only [exec] at h
  case ret =>
    unfold execRet at h; split at h <;> cases h
    · exact .popped ⟨s.sp.val - 1, by omega⟩
    · exact .own
  case call =>
    unfold execCall at h; split at h <;> cases h
    · exact .jump _
    · exact .own
  case jp => cases h; exact .jump _
  case jpV0 => cases h; exact .jumpBy _ _
  case ldK =>
    rcases hk : s.lowestKey with _ | k
    · rw [execLdK_none hk] at h; cases h; exact .own
    · rw [execLdK_some hk] at h; cases h; exact .kept
  case seImm | sneImm | seReg | sneReg => cases h; exact nextPc_of_skipIf s _
  case skp | sknp => exact nextPc_of_checked (nextPc_of_skipIf s _) h
  case drw | ldB | stM | ldM => refine nextPc_of_checked ?_ h; exact .kept
  all_goals cases h; exact .kept

theorem immAddress_toNat (nnn : Addr12) : (immAddress nnn).toNat = nnn.toNat := by
  simp [immAddress]; omega

/-- The sum of an immediate address and a byte does not wrap: it is at most 0xFFF + 0xFF (R110). -/
theorem immAddress_add_byteWord_le (nnn : Addr12) (b : Byte) : (immAddress nnn + byteWord b).toNat ≤ 0x10FE := by
  have := nnn.isLt
  have := b.isLt
  simp [immAddress, byteWord]; omega

/-- From an advanced PC, 2 to 0x1000, and return addresses of at most 0x1000, PC stays within the bound of R23. -/
theorem nextPc_le {s : State} {w : Word} (h : NextPc s w) (hlo : 2 ≤ s.pc.toNat) (hhi : s.pc.toNat ≤ 0x1000)
    (hstack : ∀ k, (s.stackAt k).toNat ≤ 0x1000) : w.toNat ≤ 0x10FE := by
  cases h with
  | kept => omega
  | skipped => rw [BitVec.toNat_add]; simp; omega
  | own => bv_omega
  | jump nnn => rw [immAddress_toNat]; omega
  | jumpBy nnn b => exact immAddress_add_byteWord_le nnn b
  | popped k => exact Nat.le_trans (hstack k) (by omega)

/-- An entry of the return stack stays, or is the PC that CALL pushed. -/
theorem stackAt_of_exec {i : Instr} {s t : State} (h : exec i s = .next t) (k : Fin 16) :
    t.stackAt k = s.stackAt k ∨ t.stackAt k = s.pc := by
  obtain hst | ⟨-, hs, -, hst⟩ := exec_stack h
  · exact .inl (by simp [State.stackAt, hst])
  · by_cases hk : s.sp.val = k.val
    · exact .inr (by simp [State.stackAt, hst, hk])
    · exact .inl (by simp [State.stackAt, hst, hk])

/-! ### The invariant -/

/-- An instruction keeps the invariant where the fetch has left PC at 2 to 0x1000. -/
theorem exec_keeps_inv {i : Instr} {s t : State} (hs : Inv s) (hlo : 2 ≤ s.pc.toNat) (hhi : s.pc.toNat ≤ 0x1000)
    (h : exec i s = .next t) : Inv t where
  memory_wf := memory_wf_of_exec h hs.memory_wf
  low_memory a ha := (read_low_of_exec h ha).trans (hs.low_memory a ha)
  pc_bound := nextPc_le (nextPc_of_exec h) hlo hhi hs.stack_bound
  stack_bound k := by
    obtain hk | hk := stackAt_of_exec h k
    · rw [hk]; exact hs.stack_bound k
    · rw [hk]; exact hhi

/-- Fault entry at the address in PC keeps the invariant: FAULT is no part of it. -/
theorem takeFault_keeps_inv {s : State} (hs : Inv s) (c : Fault) (w d : Word) : Inv (takeFault c s.pc w d s) :=
  ⟨hs.memory_wf, hs.low_memory, hs.pc_bound, hs.stack_bound⟩

/-- The advance past an instruction within memory leaves PC at 2 to 0x1000, without a wrap (R100). -/
theorem advancePc_toNat {s : State} (hpc : s.pc.toNat ≤ 4094) : s.advancePc.pc.toNat = s.pc.toNat + 2 := by
  rw [advancePc_pc, BitVec.toNat_add]; simp; omega

theorem advancePc_keeps_inv {s : State} (hs : Inv s) (hpc : s.pc.toNat ≤ 4094) : Inv s.advancePc :=
  ⟨hs.memory_wf, hs.low_memory, by rw [advancePc_toNat hpc]; omega, hs.stack_bound⟩

/-- Settles O19: by what a step can do. A fetch that succeeds leaves PC at 0x1000 at most, so the bound 0x10FE, which only
JP_V0 reaches, does not grow from step to step. -/
theorem everyStepKeepsTheInvariant : Obligations.EveryStepKeepsTheInvariant := by
  intro s t hs h
  obtain ⟨-, -, rfl⟩ | ⟨-, -, rfl⟩ | ⟨-, -, -, rfl⟩ | ⟨i, ⟨-, hpc, -⟩, hi⟩ := step_cases h
  · exact hs
  · exact takeFault_keeps_inv hs _ _ _
  · exact takeFault_keeps_inv hs _ _ _
  · have hadv := advancePc_toNat hpc
    exact exec_keeps_inv (advancePc_keeps_inv hs hpc) (by omega) (by omega) hi

end Sys2Proof.Machine
end

section
/-! PROOFS. The encoding: decode and encode are inverse but for the y field of the shifts, the illegal words are those of
the table, decoder and opcode map agree, and the fields lie where the formats have them (spec/30_encoding.md). -/

namespace Sys2Proof

/-! ### Decode by category (R74) -/

/-- The categories: those whose every word is one instruction, and the six that select by further bits (R74, R76). -/
theorem category_cases (c : BitVec 4) :
    c ∈ [0x1, 0x2, 0x3, 0x4, 0x6, 0x7, 0xA, 0xB, 0xC, 0xD] ∨
      c = 0x0 ∨ c = 0x5 ∨ c = 0x8 ∨ c = 0x9 ∨ c = 0xE ∨ c = 0xF := by revert c; decide

section
variable {w : Word}

theorem decode_category0 (h : fieldCategory w = 0x0) : decode w = decodeCategory0 w := by simp [decode, h]

theorem decode_category5 (h : fieldCategory w = 0x5) : decode w =
    if fieldN w = 0 then .ok (.seReg (fieldX w) (fieldY w)) else .error .illegalInstruction := by simp [decode, h]

theorem decode_category8 (h : fieldCategory w = 0x8) :
    decode w = decodeCategory8 (fieldX w) (fieldY w) (fieldN w) := by simp [decode, h]

theorem decode_category9 (h : fieldCategory w = 0x9) : decode w =
    if fieldN w = 0 then .ok (.sneReg (fieldX w) (fieldY w)) else .error .illegalInstruction := by simp [decode, h]

theorem decode_categoryE (h : fieldCategory w = 0xE) : decode w = decodeCategoryE (fieldX w) (fieldNN w) := by
  simp [decode, h]

theorem decode_categoryF (h : fieldCategory w = 0xF) : decode w = decodeCategoryF (fieldX w) (fieldNN w) := by
  simp [decode, h]

end

theorem decode_formatR5 (x y : Reg) (n : BitVec 4) : decode (formatR 0x5 x y n) =
    if n = 0 then .ok (.seReg x y) else .error .illegalInstruction := by simp [decode_category5]

theorem decode_formatR8 (x y : Reg) (n : BitVec 4) : decode (formatR 0x8 x y n) = decodeCategory8 x y n := by
  simp [decode_category8]

theorem decode_formatR9 (x y : Reg) (n : BitVec 4) : decode (formatR 0x9 x y n) =
    if n = 0 then .ok (.sneReg x y) else .error .illegalInstruction := by simp [decode_category9]

theorem decode_formatIE (x : Reg) (nn : Byte) : decode (formatI 0xE x nn) = decodeCategoryE x nn := by
  simp [decode_categoryE]

theorem decode_formatIF (x : Reg) (nn : Byte) : decode (formatI 0xF x nn) = decodeCategoryF x nn := by
  simp [decode_categoryF]

/-- Settles O7, by running the decoder on the twenty-one words. -/
theorem writtenOutWordsDecode : Obligations.WrittenOutWordsDecode := by
  unfold Obligations.WrittenOutWordsDecode
  decide

/-! ### Decode of encode (R83) -/

/-- Decode inverts encode: the fields of the word are the operands, and select the arm of the instruction. -/
theorem decode_encode {i : Instr} (h : i.wellFormed = true) : decode (encode i) = .ok i := by
  cases i
  case nop | cls | ret => rfl
  case jp | call | ldIdx | jpV0 => simp [encode, decode]
  case seImm | sneImm | ldImm | addImm | rnd => simp [encode, decode]
  case seReg x y => exact decode_formatR5 x y 0x0
  case sneReg x y => exact decode_formatR9 x y 0x0
  case ldReg | or | and | xor | addReg | sub | shr | subn | shl => exact decode_formatR8 _ _ _
  case skp | sknp => exact decode_formatIE _ _
  case ldVdt | ldK | ldDt | ldSt | addIdx | ldF | ldB | stM | ldM => exact decode_formatIF _ _
  case drw x y n =>
    have hn : n ≤ 15 := by simpa [Instr.wellFormed] using h
    simp [encode, decode, Nat.mod_eq_of_lt (show n < 16 by omega)]

/-- Settles O1, by the format of the instruction. -/
theorem decodeOfEncodeIsTheInstruction : Obligations.DecodeOfEncodeIsTheInstruction :=
  fun _ => decode_encode

/-! ### Encode of decode (R78) -/

/-- The word is one of those that stand for the shift `i`, whatever its y field (R78). -/
def IsShiftWord (i : Instr) (w : Word) : Prop :=
  (∃ x y, i = .shr x ∧ w = formatR 0x8 x y 0x6) ∨ (∃ x y, i = .shl x ∧ w = formatR 0x8 x y 0xE)

theorem formatA_of_category {w : Word} {c : BitVec 4} (h : fieldCategory w = c) : formatA c (fieldNNN w) = w :=
  h ▸ formatA_fields w

theorem formatI_of_category {w : Word} {c : BitVec 4} (h : fieldCategory w = c) :
    formatI c (fieldX w) (fieldNN w) = w := h ▸ formatI_fields w

theorem formatR_of_category {w : Word} {c n : BitVec 4} (h : fieldCategory w = c) (hn : fieldN w = n) :
    formatR c (fieldX w) (fieldY w) n = w := h ▸ hn ▸ formatR_fields w

theorem encode_of_decodeCategory0 {w : Word} {i : Instr} (h : decodeCategory0 w = .ok i) : encode i = w := by
  obtain ⟨rfl, rfl⟩ | ⟨rfl, rfl⟩ | ⟨rfl, rfl⟩ := decodeCategory0_ok h <;> rfl

theorem encode_of_decodeCategory8 {x y : Reg} {n : BitVec 4} {i : Instr} (h : decodeCategory8 x y n = .ok i) :
    encode i = formatR 0x8 x y n ∨ IsShiftWord i (formatR 0x8 x y n) := by
  obtain ⟨rfl, rfl⟩ | ⟨rfl, rfl⟩ | ⟨rfl, rfl⟩ | ⟨rfl, rfl⟩ | ⟨rfl, rfl⟩ | ⟨rfl, rfl⟩ | ⟨rfl, hshr⟩ | ⟨rfl, rfl⟩ |
    ⟨rfl, hshl⟩ := decodeCategory8_ok h
  case inr.inr.inr.inr.inr.inr.inl => exact .inr (.inl ⟨x, y, hshr, rfl⟩)
  case inr.inr.inr.inr.inr.inr.inr.inr => exact .inr (.inr ⟨x, y, hshl, rfl⟩)
  all_goals exact .inl rfl

theorem encode_of_decodeCategoryE {x : Reg} {nn : Byte} {i : Instr} (h : decodeCategoryE x nn = .ok i) :
    encode i = formatI 0xE x nn := by
  obtain ⟨rfl, rfl⟩ | ⟨rfl, rfl⟩ := decodeCategoryE_ok h <;> rfl

theorem encode_of_decodeCategoryF {x : Reg} {nn : Byte} {i : Instr} (h : decodeCategoryF x nn = .ok i) :
    encode i = formatI 0xF x nn := by
  obtain ⟨rfl, rfl⟩ | ⟨rfl, rfl⟩ | ⟨rfl, rfl⟩ | ⟨rfl, rfl⟩ | ⟨rfl, rfl⟩ | ⟨rfl, rfl⟩ | ⟨rfl, rfl⟩ | ⟨rfl, rfl⟩ |
    ⟨rfl, rfl⟩ := decodeCategoryF_ok h <;> rfl

/-- A word that decodes is the word of its instruction, or a shift's with some y. -/
theorem encode_of_decode {w : Word} {i : Instr} (h : decode w = .ok i) : encode i = w ∨ IsShiftWord i w := by
  obtain ⟨-, h⟩ | ⟨c, rfl⟩ | ⟨c, rfl⟩ | ⟨c, rfl⟩ | ⟨c, rfl⟩ | ⟨c, n, rfl⟩ | ⟨c, rfl⟩ | ⟨c, rfl⟩ | ⟨c, h⟩ |
    ⟨c, n, rfl⟩ | ⟨c, rfl⟩ | ⟨c, rfl⟩ | ⟨c, rfl⟩ | ⟨c, rfl⟩ | ⟨c, h⟩ | ⟨c, h⟩ := decode_ok h
  · exact .inl (encode_of_decodeCategory0 h)
  · exact .inl (formatA_of_category c)
  · exact .inl (formatA_of_category c)
  · exact .inl (formatI_of_category c)
  · exact .inl (formatI_of_category c)
  · exact .inl (formatR_of_category c n)
  · exact .inl (formatI_of_category c)
  · exact .inl (formatI_of_category c)
  · exact formatR_of_category c rfl ▸ encode_of_decodeCategory8 h
  · exact .inl (formatR_of_category c n)
  · exact .inl (formatA_of_category c)
  · exact .inl (formatA_of_category c)
  · exact .inl (formatI_of_category c)
  · exact .inl (formatR_of_category c (by simp))
  · exact .inl ((encode_of_decodeCategoryE h).trans (formatI_of_category c))
  · exact .inl ((encode_of_decodeCategoryF h).trans (formatI_of_category c))

@[simp] theorem regBits_zero_bit (i : Nat) : (regBits 0).getLsbD i = false := by simp [regBits]

theorem formatR_clear_y (c : BitVec 4) (x y : Reg) (n : BitVec 4) : formatR c x y n &&& 0xFF0F = formatR c x 0 n := by
  apply BitVec.eq_of_getLsbD_eq; intro i hi
  rw [BitVec.getLsbD_and, formatR_bit, formatR_bit]
  have hmask : ∀ i, i < 16 → (0xFF0F#16).getLsbD i = decide (8 ≤ i ∨ i < 4) := by decide
  by_cases h4 : i < 4
  · simp [hmask i hi, h4]
  · by_cases h8 : i < 8
    · simp [hmask i hi, h4, h8]
    · simp [hmask i hi, h4, h8, show 8 ≤ i by omega]

theorem encode_of_isShiftWord {w : Word} {i : Instr} (h : IsShiftWord i w) : encode i = w &&& 0xFF0F := by
  obtain ⟨x, y, rfl, rfl⟩ | ⟨x, y, rfl, rfl⟩ := h <;> exact (formatR_clear_y ..).symm

/-- Settles O2: a decoded word is its instruction's own, or a shift's with some y, which encode clears. -/
theorem onlyShiftsIgnoreAField : Obligations.OnlyShiftsIgnoreAField := by
  refine ⟨fun w i h => ⟨fun ⟨hr, hl⟩ => ?_, fun hi => ?_⟩, fun x y => ⟨?_, ?_⟩, fun x y n hn => ⟨?_, ?_⟩⟩
  · obtain hw | ⟨x, -, rfl, -⟩ | ⟨x, -, rfl, -⟩ := encode_of_decode h
    · exact hw
    · exact absurd rfl (hr x)
    · exact absurd rfl (hl x)
  · obtain rfl | hs := encode_of_decode h
    · obtain ⟨x, rfl⟩ | ⟨x, rfl⟩ := hi <;> exact (formatR_clear_y ..).symm
    · exact encode_of_isShiftWord hs
  · exact decode_formatR8 x y 0x6
  · exact decode_formatR8 x y 0xE
  · rw [decode_formatR5, if_neg hn]
  · rw [decode_formatR9, if_neg hn]

/-! ### Illegal words (R76) -/

/-- The word is in one of the six lines of the table of R76. -/
def IllegalWord (w : Word) : Prop :=
  (fieldCategory w = 0x0 ∧ w ≠ 0x0000 ∧ w ≠ 0x00E0 ∧ w ≠ 0x00EE) ∨
  (fieldCategory w = 0x5 ∧ fieldN w ≠ 0x0) ∨
  (fieldCategory w = 0x8 ∧ fieldN w ∈ [0x8, 0x9, 0xA, 0xB, 0xC, 0xD, 0xF]) ∨
  (fieldCategory w = 0x9 ∧ fieldN w ≠ 0x0) ∨
  (fieldCategory w = 0xE ∧ fieldNN w ∉ [0x9E, 0xA1]) ∨
  (fieldCategory w = 0xF ∧ fieldNN w ∉ [0x07, 0x0A, 0x15, 0x18, 0x1E, 0x29, 0x33, 0x55, 0x65])

section
variable {e : DecodeError}

theorem decodeCategory0_error {w : Word} : decodeCategory0 w = .error e ↔
    (w ≠ 0x0000 ∧ w ≠ 0x00E0 ∧ w ≠ 0x00EE) ∧ e = .illegalInstruction := by
  unfold decodeCategory0
  split_ifs <;> simp_all [eq_comm (a := e)]

theorem decodeCategory8_error {x y : Reg} {n : BitVec 4} : decodeCategory8 x y n = .error e ↔
    n ∈ [0x8, 0x9, 0xA, 0xB, 0xC, 0xD, 0xF] ∧ e = .illegalInstruction := by
  obtain rfl | rfl | rfl | rfl | rfl | rfl | rfl | rfl | rfl | rfl | rfl | rfl | rfl | rfl | rfl | rfl :=
    nibble_cases n <;> simp [decodeCategory8, eq_comm (a := e)]

theorem decodeCategoryE_error {x : Reg} {nn : Byte} : decodeCategoryE x nn = .error e ↔
    nn ∉ [0x9E, 0xA1] ∧ e = .illegalInstruction := by
  unfold decodeCategoryE
  split_ifs <;> simp_all [eq_comm (a := e)]

theorem decodeCategoryF_error {x : Reg} {nn : Byte} : decodeCategoryF x nn = .error e ↔
    nn ∉ [0x07, 0x0A, 0x15, 0x18, 0x1E, 0x29, 0x33, 0x55, 0x65] ∧ e = .illegalInstruction := by
  unfold decodeCategoryF
  split_ifs <;> simp_all [eq_comm (a := e)]

/-- The decoder's one error, on the words of the table alone. -/
theorem decode_error {w : Word} : decode w = .error e ↔ IllegalWord w ∧ e = .illegalInstruction := by
  unfold IllegalWord
  obtain c | c | c | c | c | c | c := category_cases (fieldCategory w)
  · simp only [List.mem_cons, List.not_mem_nil, or_false] at c
    obtain c | c | c | c | c | c | c | c | c | c := c <;> simp [decode, c]
  · simp [decode_category0 c, decodeCategory0_error, c]
  · rw [decode_category5 c]; split_ifs <;> simp_all [eq_comm (a := e)]
  · simp [decode_category8 c, decodeCategory8_error, c]
  · rw [decode_category9 c]; split_ifs <;> simp_all [eq_comm (a := e)]
  · simp [decode_categoryE c, decodeCategoryE_error, c]
  · simp [decode_categoryF c, decodeCategoryF_error, c]

end

/-- Settles O5, category by category. -/
theorem illegalWordsAreThoseOfTheTable : Obligations.IllegalWordsAreThoseOfTheTable :=
  fun _ => decode_error.trans (and_iff_left rfl)

/-! ### Totality (R74) -/

theorem rows_le_of_decode {w : Word} {x y : Reg} {n : Nat} (h : decode w = .ok (.drw x y n)) : n ≤ 15 := by
  obtain rfl | ⟨_, _, hi, -⟩ | ⟨_, _, hi, -⟩ := encode_of_decode h
  · have hn : n % 16 = n := by simpa [encode, decode] using h
    omega
  · cases hi
  · cases hi

theorem wellFormed_of_decode {w : Word} {i : Instr} (h : decode w = .ok i) : i.wellFormed = true := by
  cases i with
  | drw x y n => simpa [Instr.wellFormed] using rows_le_of_decode h
  | _ => rfl

/-- Settles O3: the decoder has one error, and DRW's count is its 4-bit field. -/
theorem decodeIsTotalAndWellFormed : Obligations.DecodeIsTotalAndWellFormed := by
  intro w
  rcases hd : decode w with e | i
  · exact .inr (by rw [(decode_error.1 hd).2])
  · exact .inl ⟨i, rfl, wellFormed_of_decode hd⟩

/-! ### The bits that select the mnemonic (R74) -/

theorem mnemonic_decodeCategory8 (x y x' y' : Reg) (n : BitVec 4) :
    (decodeCategory8 x y n).map mnemonic = (decodeCategory8 x' y' n).map mnemonic := by
  unfold decodeCategory8
  split_ifs <;> rfl

theorem mnemonic_decodeCategoryE (x x' : Reg) (nn : Byte) :
    (decodeCategoryE x nn).map mnemonic = (decodeCategoryE x' nn).map mnemonic := by
  unfold decodeCategoryE
  split_ifs <;> rfl

theorem mnemonic_decodeCategoryF (x x' : Reg) (nn : Byte) :
    (decodeCategoryF x nn).map mnemonic = (decodeCategoryF x' nn).map mnemonic := by
  unfold decodeCategoryF
  split_ifs <;> rfl

/-- Beside the category, the mnemonic depends on the whole word in category 0, on n in 5, 8 and 9, on nn in E and F, and
on nothing more. -/
theorem mnemonic_decode_congr {v w : Word} (hc : fieldCategory v = fieldCategory w)
    (h0 : fieldCategory w = 0x0 → v = w) (hn : fieldCategory w ∈ [0x5, 0x8, 0x9] → fieldN v = fieldN w)
    (hnn : fieldCategory w ∈ [0xE, 0xF] → fieldNN v = fieldNN w) :
    (decode v).map mnemonic = (decode w).map mnemonic := by
  obtain c | c | c | c | c | c | c := category_cases (fieldCategory w)
  · simp only [List.mem_cons, List.not_mem_nil, or_false] at c
    obtain c | c | c | c | c | c | c | c | c | c := c <;> simp [decode, c, hc] <;> rfl
  · rw [h0 c]
  · rw [decode_category5 c, decode_category5 (hc.trans c), hn (by simp [c])]; split_ifs <;> rfl
  · rw [decode_category8 c, decode_category8 (hc.trans c), hn (by simp [c])]; exact mnemonic_decodeCategory8 ..
  · rw [decode_category9 c, decode_category9 (hc.trans c), hn (by simp [c])]; split_ifs <;> rfl
  · rw [decode_categoryE c, decode_categoryE (hc.trans c), hnn (by simp [c])]; exact mnemonic_decodeCategoryE ..
  · rw [decode_categoryF c, decode_categoryF (hc.trans c), hnn (by simp [c])]; exact mnemonic_decodeCategoryF ..

/-! ### The opcode map (R75, R84) -/

/-- The mask of the rows of a category; `mask_of_mem_opcodeTable` ties it to the table. -/
def categoryMask (c : BitVec 4) : Word :=
  if c = 0x0 then 0xFFFF else if c ∈ [0x5, 0x8, 0x9] then 0xF00F else if c ∈ [0xE, 0xF] then 0xF0FF else 0xF000

theorem fieldCategory_and (w m : Word) : fieldCategory (w &&& m) = fieldCategory w &&& fieldCategory m :=
  BitVec.extractLsb'_and

theorem fieldN_and (w m : Word) : fieldN (w &&& m) = fieldN w &&& fieldN m := BitVec.extractLsb'_and

theorem fieldNN_and (w m : Word) : fieldNN (w &&& m) = fieldNN w &&& fieldNN m := BitVec.extractLsb'_and

theorem fieldCategory_and_categoryMask (w : Word) (c : BitVec 4) :
    fieldCategory (w &&& categoryMask c) = fieldCategory w := by
  have hmask : fieldCategory (categoryMask c) = .allOnes 4 := by revert c; decide
  rw [fieldCategory_and, hmask, BitVec.and_allOnes]

theorem fieldN_and_categoryMask (w : Word) {c : BitVec 4} (hc : c ∈ [0x5, 0x8, 0x9]) :
    fieldN (w &&& categoryMask c) = fieldN w := by
  have hmask : fieldN (categoryMask c) = .allOnes 4 := by revert c; decide
  rw [fieldN_and, hmask, BitVec.and_allOnes]

theorem fieldNN_and_categoryMask (w : Word) {c : BitVec 4} (hc : c ∈ [0xE, 0xF]) :
    fieldNN (w &&& categoryMask c) = fieldNN w := by
  have hmask : fieldNN (categoryMask c) = .allOnes 8 := by revert c; decide
  rw [fieldNN_and, hmask, BitVec.and_allOnes]

/-- The masks keep every bit that selects the mnemonic. -/
theorem mnemonic_decode_and_mask (w : Word) :
    (decode (w &&& categoryMask (fieldCategory w))).map mnemonic = (decode w).map mnemonic :=
  mnemonic_decode_congr (fieldCategory_and_categoryMask w _) (fun h => h ▸ BitVec.and_allOnes)
    (fieldN_and_categoryMask w) (fieldNN_and_categoryMask w)

theorem hit_iff {r : OpcodeRow} {w : Word} : r.hit w = true ↔ w &&& r.mask = r.value := beq_iff_eq

theorem mask_of_mem_opcodeTable {r : OpcodeRow} (hr : r ∈ opcodeTable) :
    r.mask = categoryMask (fieldCategory r.value) := by revert r; decide

theorem mnemonic_decode_value {r : OpcodeRow} (hr : r ∈ opcodeTable) :
    (decode r.value).map mnemonic = .ok r.name := by revert r; decide

/-- A word of a row is that row's word of match but for bits that do not select the mnemonic. -/
theorem mnemonic_decode_of_hit {r : OpcodeRow} {w : Word} (hr : r ∈ opcodeTable) (hw : r.hit w = true) :
    (decode w).map mnemonic = .ok r.name := by
  rw [hit_iff] at hw
  have hc : fieldCategory r.value = fieldCategory w := by
    rw [← hw, mask_of_mem_opcodeTable hr, fieldCategory_and_categoryMask]
  rw [mask_of_mem_opcodeTable hr, hc] at hw
  rw [← mnemonic_decode_and_mask, hw, mnemonic_decode_value hr]

/-- Every instruction's word has the bits its row fixes (R75, R83). -/
theorem Laws.OpcodeRow.statement : ∀ i, Statement i
  | .nop => nop | .cls => cls | .ret => ret | .jp a => jp a | .call a => call a
  | .seImm x b => seImm x b | .sneImm x b => sneImm x b | .seReg x y => seReg x y
  | .ldImm x b => ldImm x b | .addImm x b => addImm x b | .ldReg x y => ldReg x y
  | .or x y => or x y | .and x y => and x y | .xor x y => xor x y | .addReg x y => addReg x y
  | .sub x y => sub x y | .shr x => shr x | .subn x y => subn x y | .shl x => shl x
  | .sneReg x y => sneReg x y | .ldIdx a => ldIdx a | .jpV0 a => jpV0 a | .rnd x b => rnd x b
  | .drw x y n => drw x y n | .skp x => skp x | .sknp x => sknp x | .ldVdt x => ldVdt x
  | .ldK x => ldK x | .ldDt x => ldDt x | .ldSt x => ldSt x | .addIdx x => addIdx x
  | .ldF x => ldF x | .ldB x => ldB x | .stM x => stM x | .ldM x => ldM x

theorem exists_hit_of_decode {w : Word} {i : Instr} (h : decode w = .ok i) :
    ∃ r ∈ opcodeTable, r.name = mnemonic i ∧ r.hit w = true := by
  obtain rfl | ⟨x, y, rfl, rfl⟩ | ⟨x, y, rfl, rfl⟩ := encode_of_decode h
  · obtain ⟨r, hr, hn, hw⟩ := Laws.OpcodeRow.statement i
    exact ⟨r, hr, hn, hit_iff.2 hw⟩
  · exact ⟨⟨"SHR", 0xF00F, 0x8006⟩, by decide, rfl, hit_iff.2 (formatR_hit 0x8 x y 0x6)⟩
  · exact ⟨⟨"SHL", 0xF00F, 0x800E⟩, by decide, rfl, hit_iff.2 (formatR_hit 0x8 x y 0xE)⟩

/-- A word is of a row exactly when it decodes to an instruction of that row's mnemonic (R84). -/
theorem mem_rowsHit {w : Word} {m : String} : m ∈ rowsHit w ↔ (decode w).map mnemonic = .ok m := by
  simp only [rowsHit, List.mem_map, List.mem_filter]
  constructor
  · rintro ⟨r, ⟨hr, hw⟩, rfl⟩
    exact mnemonic_decode_of_hit hr hw
  · intro h
    rcases hd : decode w with e | i <;> rw [hd] at h <;> cases h
    obtain ⟨r, hr, hn, hw⟩ := exists_hit_of_decode hd
    exact ⟨r, ⟨hr, hw⟩, hn⟩

theorem rowsHit_nodup (w : Word) : (rowsHit w).Nodup := by
  have hnames : (opcodeTable.map (·.name)).Nodup := by decide
  exact hnames.sublist (List.filter_sublist.map _)

/-- Settles O4: by `mem_rowsHit` the rows of a word have one name, and the table names no row twice. -/
theorem decodeAgreesWithTheOpcodeMap : Obligations.DecodeAgreesWithTheOpcodeMap := by
  refine fun w => ⟨fun i h => List.perm_singleton.1 ?_, fun h => List.eq_nil_iff_forall_not_mem.2 fun m hm => ?_⟩
  · refine (List.perm_ext_iff_of_nodup (rowsHit_nodup w) (List.nodup_singleton _)).2 fun m => ?_
    rw [mem_rowsHit, h]
    simp [Except.map, eq_comm]
  · rw [mem_rowsHit, h] at hm
    cases hm

/-! ### The fields of an encoding (R83) -/

/-- The bits of a register index moved to bit `k` of a word. -/
theorem shifted_bit (x : Reg) (k : Nat) {i : Nat} (hi : i < 16) :
    (BitVec.ofNat 16 x.val <<< k).getLsbD i = (!decide (i < k) && (regBits x).getLsbD (i - k)) := by
  have hx : (BitVec.ofNat 16 x.val).getLsbD (i - k) = (regBits x).getLsbD (i - k) := by
    rw [BitVec.getLsbD_ofNat, decide_eq_true (by omega), Bool.true_and]; rfl
  rw [BitVec.getLsbD_shiftLeft, hx]
  simp [hi]

theorem formatA_places_nnn (c : BitVec 4) (a : Addr12) : formatA c a = formatA c 0 ||| a.setWidth 16 := by
  apply BitVec.eq_of_getLsbD_eq; intro i hi
  rw [BitVec.getLsbD_or, formatA_bit, formatA_bit, BitVec.getLsbD_setWidth]
  by_cases h : i < 12
  · simp [h, hi]
  · simp [h, BitVec.getLsbD_of_ge a i (by omega)]

theorem formatI_places_x (c : BitVec 4) (x : Reg) (nn : Byte) :
    formatI c x nn = formatI c 0 nn ||| (BitVec.ofNat 16 x.val <<< 8) := by
  apply BitVec.eq_of_getLsbD_eq; intro i hi
  rw [BitVec.getLsbD_or, formatI_bit, formatI_bit, shifted_bit x 8 hi]
  by_cases h8 : i < 8
  · simp [h8]
  · by_cases h12 : i < 12
    · simp [h8, h12]
    · simp [h8, h12, BitVec.getLsbD_of_ge (regBits x) (i - 8) (by omega)]

theorem formatI_places_nn (c : BitVec 4) (nn : Byte) : formatI c 0 nn = formatI c 0 0 ||| nn.setWidth 16 := by
  apply BitVec.eq_of_getLsbD_eq; intro i hi
  rw [BitVec.getLsbD_or, formatI_bit, formatI_bit, BitVec.getLsbD_setWidth]
  by_cases h8 : i < 8
  · simp [h8, hi]
  · simp [h8, BitVec.getLsbD_of_ge nn i (by omega)]

theorem formatI_places (c : BitVec 4) (x : Reg) (nn : Byte) :
    formatI c x nn = formatI c 0 0 ||| ((BitVec.ofNat 16 x.val <<< 8) ||| nn.setWidth 16) := by
  rw [formatI_places_x, formatI_places_nn, BitVec.or_assoc, BitVec.or_comm (nn.setWidth 16)]

theorem formatR_places_xy (c : BitVec 4) (x y : Reg) (n : BitVec 4) :
    formatR c x y n = formatR c 0 0 n ||| ((BitVec.ofNat 16 x.val <<< 8) ||| (BitVec.ofNat 16 y.val <<< 4)) := by
  apply BitVec.eq_of_getLsbD_eq; intro i hi
  rw [BitVec.getLsbD_or, BitVec.getLsbD_or, formatR_bit, formatR_bit, shifted_bit x 8 hi, shifted_bit y 4 hi]
  by_cases h4 : i < 4
  · simp [h4, show i < 8 by omega]
  · by_cases h8 : i < 8
    · simp [h4, h8]
    · have hy := BitVec.getLsbD_of_ge (regBits y) (i - 4) (by omega)
      by_cases h12 : i < 12
      · simp [h4, h8, h12, hy]
      · simp [h4, h8, h12, hy, BitVec.getLsbD_of_ge (regBits x) (i - 8) (by omega)]

theorem formatR_places_x (c : BitVec 4) (x : Reg) (n : BitVec 4) :
    formatR c x 0 n = formatR c 0 0 n ||| (BitVec.ofNat 16 x.val <<< 8) := by
  rw [formatR_places_xy]; simp

theorem formatR_places_n (c n : BitVec 4) : formatR c 0 0 n = formatR c 0 0 0 ||| n.setWidth 16 := by
  apply BitVec.eq_of_getLsbD_eq; intro i hi
  rw [BitVec.getLsbD_or, formatR_bit, formatR_bit, BitVec.getLsbD_setWidth]
  by_cases h4 : i < 4
  · simp [h4, hi]
  · simp [h4, BitVec.getLsbD_of_ge n i (by omega)]

/-- DRW's count is the n field, for the counts that 4 bits hold. -/
theorem encode_drw_places (x y : Reg) {n : Nat} (hn : n ≤ 15) : encode (.drw x y n) =
    0xD000 ||| ((BitVec.ofNat 16 x.val <<< 8) ||| (BitVec.ofNat 16 y.val <<< 4)) ||| BitVec.ofNat 16 n := by
  have hn' : (BitVec.ofNat 4 n).setWidth 16 = BitVec.ofNat 16 n := by
    apply BitVec.eq_of_toNat_eq; simp; omega
  rw [encode, formatR_places_xy, formatR_places_n, hn', BitVec.or_assoc, BitVec.or_comm (BitVec.ofNat 16 n),
    ← BitVec.or_assoc]
  rfl

/-- The high byte of a word comes first in memory (R53). -/
theorem wordBytes_eq (w : Word) : wordBytes w = [(w >>> 8).setWidth 8, w.setWidth 8] := rfl

/-- Settles O6: the match value is the format at zero fields, and each field is OR-ed to it at its bits. -/
theorem encodePlacesTheFields : Obligations.EncodePlacesTheFields := by
  refine ⟨⟨rfl, rfl, rfl⟩, fun a => ?_, fun x nn => ?_, fun x y => ?_, fun x => ?_, fun i => ?_, by decide⟩
  · exact ⟨formatA_places_nnn _ a, formatA_places_nnn _ a, formatA_places_nnn _ a, formatA_places_nnn _ a⟩
  · have hI := fun c => formatI_places c x nn
    exact ⟨hI _, hI _, hI _, hI _, hI _⟩
  · have hR := fun c n => formatR_places_xy c x y n
    exact ⟨hR _ _, hR _ _, hR _ _, hR _ _, hR _ _, hR _ _, hR _ _, hR _ _, hR _ _, fun n hn => encode_drw_places x y hn⟩
  · have hS := fun n => formatR_places_x 0x8 x n
    have hX := fun c nn => formatI_places_x c x nn
    exact ⟨hS _, hS _, hX _ _, hX _ _, hX _ _, hX _ _, hX _ _, hX _ _, hX _ _, hX _ _, hX _ _, hX _ _, hX _ _⟩
  · exact ⟨wordBytes_eq _, wordOfBytes_wordBytes _⟩

end Sys2Proof
end

section
/-! PROOFS. Control transfer: the step at its first two phases, the jumps, the subroutine call and return, and the register
skips (spec/40_control.md). -/

namespace Sys2Proof.Machine

/-! ### Fetch, decode and the advance of PC (R100) -/

/-- Settles O8: the two bytes at PC are the fetched word, so the step executes `i` at the advanced PC. -/
theorem stepRunsTheDecodedInstruction : Obligations.StepRunsTheDecodedInstruction :=
  fun _ _ hf hpc hd => step_of_executes ⟨hf, hpc, hd⟩

/-- Settles O9: the fetch does not get past its bounds check, and fault entry writes PC's own value back to it. -/
theorem fetchBeyondMemoryFaults : Obligations.FetchBeyondMemoryFaults := by
  intro s hf hpc
  rw [step, fetchDecode_beyond hf hpc]
  rfl

/-! ### The words of the control instructions (R75) -/

/-- An instruction other than the shifts has one word, its encoding (R78). -/
theorem decode_eq_ok_iff {w : Word} {i : Instr} (hwf : i.wellFormed = true) (hshr : ∀ x, i ≠ .shr x)
    (hshl : ∀ x, i ≠ .shl x) : decode w = .ok i ↔ w = encode i := by
  constructor
  · intro h
    obtain hw | ⟨x, -, hi, -⟩ | ⟨x, -, hi, -⟩ := encode_of_decode h
    · exact hw.symm
    · exact absurd hi (hshr x)
    · exact absurd hi (hshl x)
  · rintro rfl
    exact decode_encode hwf

/-! ### Jumps (R103, R109, R110) -/

/-- The sum of an immediate address and a byte is not reduced: it is less than 65536 (R110). -/
theorem immAddress_add_byteWord_toNat (nnn : Addr12) (b : Byte) :
    (immAddress nnn + byteWord b).toNat = nnn.toNat + b.toNat := by
  have hb : (byteWord b).toNat = b.toNat := by simp [byteWord]; omega
  rw [BitVec.toNat_add, immAddress_toNat, hb]
  omega

/-- Settles O27: each of the three answers the state with PC alone set. -/
theorem jumpsSetThePc : Obligations.JumpsSetThePc := by
  refine ⟨fun w => ?nopWord, fun nnn => ⟨decode_encode (i := .jp nnn) rfl, decode_encode (i := .jpV0 nnn) rfl⟩,
    fun s => rfl, fun s h => step_of_executes h, fun nnn s => ?jp, fun nnn s => ?jpV0⟩
  case nopWord => exact decode_eq_ok_iff rfl (by simp) (by simp)
  case jp => exact ⟨s.setPc (immAddress nnn), rfl, rfl, immAddress_toNat nnn⟩
  case jpV0 =>
    exact ⟨s.setPc (immAddress nnn + byteWord (s.getV 0)), rfl, rfl, immAddress_add_byteWord_toNat nnn _,
      immAddress_add_byteWord_le nnn _⟩

/-! ### The return stack (R24, R25) -/

section
variable (s : State)

@[simp] theorem stackAt_setPc (w : Word) (k : Fin 16) : (s.setPc w).stackAt k = s.stackAt k := rfl

/-- Reading an entry depends on the array alone. -/
theorem stackAt_congr {s t : State} (h : t.stack = s.stack) (k : Fin 16) : t.stackAt k = s.stackAt k := by
  simp [State.stackAt, h]

@[simp] theorem stackAt_push_top (w : Word) (h : s.sp.val < 16) : (s.push w h).stackAt ⟨s.sp.val, h⟩ = w := by
  simp [State.stackAt, State.push]

theorem stackAt_push_other (w : Word) (h : s.sp.val < 16) {k : Fin 16} (hk : k.val ≠ s.sp.val) :
    (s.push w h).stackAt k = s.stackAt k := by
  simp [State.stackAt, State.push, hk.symm]

end

section
variable {s : State} {nnn : Addr12}

/-- With room on the stack CALL pushes PC and jumps (R104). -/
theorem execCall_of_lt (h : s.sp.val < 16) :
    execCall nnn s = .next ((s.push s.pc h).setPc (immAddress nnn)) := dif_pos h

/-- On a full stack CALL takes StackOverflow (R104, R202). -/
theorem execCall_of_full (h : s.sp.val = 16) :
    execCall nnn s = .next (takeFault .stackOverflow (s.pc - 2) (encode (.call nnn)) 0x0000 s) :=
  dif_neg (by omega)

/-- RET at depth k + 1 pops STACK[k] into PC (R102). -/
theorem execRet_of_eq_succ {k : Fin 16} (h : s.sp = k.succ) :
    execRet s = .next { s with sp := k.castSucc, pc := s.stackAt k } := by
  have hpos : 0 < s.sp.val := by simp [h]
  have hdrop : s.dropTop = { s with sp := k.castSucc } := by simp [State.dropTop, h, Fin.ext_iff]
  have htop : s.top hpos = s.stackAt k := by simp [State.top, State.stackAt, h]
  rw [execRet, dif_pos hpos, hdrop, htop]
  rfl

/-- On an empty stack RET takes StackUnderflow (R102, R203). -/
theorem execRet_of_empty (h : s.sp.val = 0) :
    execRet s = .next (takeFault .stackUnderflow (s.pc - 2) (encode .ret) 0x0000 s) := dif_neg (by omega)

end

/-- Settles O28: with room, CALL pushes and jumps; in a step the pushed PC is the CALL's address and 2, without a wrap. -/
theorem callPushesAndJumps : Obligations.CallPushesAndJumps := by
  refine ⟨fun nnn => decode_encode (i := .call nnn) rfl, fun nnn s h => ?room, fun nnn s h he => ?inStep,
    fun nnn s h => ?full⟩
  case room =>
    exact ⟨_, execCall_of_lt h, rfl, rfl, immAddress_toNat nnn, stackAt_push_top s s.pc h,
      fun k hk => stackAt_push_other s s.pc h hk⟩
  case inStep =>
    have hstep : step s = execCall nnn s.advancePc := step_of_executes he
    have hroom : s.advancePc.sp.val < 16 := h
    have htop := stackAt_push_top s.advancePc s.advancePc.pc hroom
    obtain ⟨-, hpc, -⟩ := he
    exact ⟨_, hstep.trans (execCall_of_lt hroom), (congrArg BitVec.toNat htop).trans (advancePc_toNat hpc)⟩
  case full => exact ⟨_, execCall_of_full h, rfl⟩

/-- Settles O29: RET at depth k + 1 pops STACK[k]; at depth 0 it takes the fault. -/
theorem retPopsIntoThePc : Obligations.RetPopsIntoThePc := by
  refine ⟨fun w => decode_eq_ok_iff rfl (by simp) (by simp), fun s k hk => ?_, fun s h => ?_⟩
  · exact ⟨_, execRet_of_eq_succ (Fin.ext hk), rfl, rfl, rfl⟩
  · exact ⟨_, execRet_of_empty h, rfl⟩

/-- Settles O30: the stack the CALL left is one deeper, with the CALL's PC on top, and RET pops that. -/
theorem returnResumesAfterTheCall : Obligations.ReturnResumesAfterTheCall := by
  intro nnn s t u hroom hcall hstack hsp
  obtain rfl : (s.push s.pc hroom).setPc (immAddress nnn) = t := by
    simpa [exec, execCall_of_lt hroom] using hcall
  have hdepth : u.sp = Fin.succ ⟨s.sp.val, hroom⟩ := hsp
  have htop : u.stackAt ⟨s.sp.val, hroom⟩ = s.pc := by
    rw [stackAt_congr hstack, stackAt_setPc, stackAt_push_top]
  refine ⟨_, execRet_of_eq_succ hdepth, ?_⟩
  rw [htop]
  rfl

/-! ### The register skips (R105 to R108) -/

/-- A skip changes PC alone, by 2 when its condition holds (R101). -/
theorem skipIf_decide (s : State) (p : Prop) [Decidable p] :
    s.skipIf (decide p) = { s with pc := if p then s.pc + 2 else s.pc } := by
  by_cases hp : p
  · simp [State.skipIf, State.setPc, hp]
  · simp [State.skipIf, hp]

/-- A skip on the negated condition: PC stays when the condition holds (R106, R108). -/
theorem skipIf_decide_not (s : State) (p : Prop) [Decidable p] :
    s.skipIf (decide ¬p) = { s with pc := if p then s.pc else s.pc + 2 } := by
  rw [skipIf_decide, ite_not]

/-- Settles O31: the words by format, and each skip as its condition on PC; SNE's condition is SE's negated. -/
theorem skipsCompareRegisters : Obligations.SkipsCompareRegisters := by
  obtain ⟨-, -, hillegal⟩ := onlyShiftsIgnoreAField
  refine ⟨fun x nn => ⟨decode_encode (i := .seImm x nn) rfl, decode_encode (i := .sneImm x nn) rfl⟩,
    fun x y => ⟨decode_formatR5 x y 0x0, decode_formatR9 x y 0x0⟩, hillegal,
    fun x nn s => ⟨?seImm, ?sneImm⟩, fun x y s => ⟨?seReg, ?sneReg⟩⟩
  case seImm | seReg => exact congrArg _ (skipIf_decide s _)
  case sneImm | sneReg => exact congrArg _ (skipIf_decide_not s _)

end Sys2Proof.Machine
end

section
/-! PROOFS. Moves, arithmetic and logic: the frame of a register write and of a flagged register write, the results and
flags as numbers, and the instructions assembled from them (spec/41_alu.md). -/

namespace Sys2Proof.Machine

/-! ### The two frames of a register write (R20, R132) -/

/-- Writing a register writes only that register; the value may be given in another form. -/
theorem writesOnlyReg_setV (s : State) (x : Reg) {result b : Byte} (hb : result = b) :
    WritesOnlyReg s (s.setV x result) x b :=
  ⟨rfl, (getV_setV_same s x result).trans hb, fun _ hr => getV_setV_other s result hr⟩

/-- A result and a flag are written in that order, so that with x = 15 the flag is what remains (R132); both values may
be given in another form. -/
theorem writesRegThenFlag_setResultAndFlag (s : State) (x : Reg) {result b f : Byte} {c : Bool} (hb : result = b)
    (hf : flagByte c = f) : WritesRegThenFlag s (s.setResultAndFlag x result c) x b f := by
  refine ⟨rfl, (getV_vf_setResultAndFlag s x result c).trans hf, fun hx => ?result, fun r hr hvf => ?others⟩
  case result => rw [getV_setResultAndFlag s x x result c hx, if_pos rfl, hb]
  case others => rw [getV_setResultAndFlag s x r result c hvf, if_neg hr]

/-! ### Results as numbers (R133) -/

theorem add_eq_ofNat (a b : Byte) : a + b = BitVec.ofNat 8 ((a.toNat + b.toNat) % 256) := by
  apply BitVec.eq_of_toNat_eq
  simp

/-- Subtraction modulo 256: a borrow adds 256 to the minuend. -/
theorem sub_eq_ofNat (a b : Byte) :
    a - b = BitVec.ofNat 8 (if a.toNat < b.toNat then a.toNat + 256 - b.toNat else a.toNat - b.toNat) := by
  apply BitVec.eq_of_toNat_eq
  rw [BitVec.toNat_sub, BitVec.toNat_ofNat]
  split <;> omega

theorem ushiftRight_one_eq_ofNat (a : Byte) : a >>> 1 = BitVec.ofNat 8 (a.toNat / 2) := by
  apply BitVec.eq_of_toNat_eq
  rw [BitVec.toNat_ushiftRight, Nat.shiftRight_eq_div_pow, BitVec.toNat_ofNat]
  omega

theorem shiftLeft_one_eq_ofNat (a : Byte) : a <<< 1 = BitVec.ofNat 8 (a.toNat * 2 % 256) := by
  apply BitVec.eq_of_toNat_eq
  simp [Nat.shiftLeft_eq]

/-! ### Flags as numbers (R21) -/

theorem flagByte_carryOut (a b : Byte) :
    flagByte (carryOut a b) = if 255 < a.toNat + b.toNat then 0x01 else 0x00 := by
  simp [flagByte, carryOut]

/-- The flag of a subtraction is 0 when it borrows and 1 otherwise, equality included (R127, R129). -/
theorem flagByte_notBorrow (a b : Byte) :
    flagByte (notBorrow a b) = if a.toNat < b.toNat then 0x00 else 0x01 := by
  simp only [flagByte, notBorrow, decide_eq_true_eq, ← Nat.not_lt, ite_not]

/-- A bit of a byte as a flag is the byte divided by the bit's weight, modulo 2. -/
theorem flagByte_getLsbD (a : Byte) (k : Nat) : flagByte (a.getLsbD k) = BitVec.ofNat 8 (a.toNat / 2 ^ k % 2) := by
  rw [BitVec.getLsbD, Nat.testBit_eq_decide_div_mod_eq]
  obtain hbit | hbit := Nat.mod_two_eq_zero_or_one (a.toNat / 2 ^ k) <;> simp [flagByte, hbit]

/-- The bit SHR shifts out is the remainder of the halving (R128). -/
theorem flagByte_lowBit (a : Byte) : flagByte (lowBit a) = BitVec.ofNat 8 (a.toNat % 2) := by
  simpa [lowBit] using flagByte_getLsbD a 0

/-- The bit SHL shifts out is what the doubling carries past 255 (R130). -/
theorem flagByte_highBit (a : Byte) : flagByte (highBit a) = BitVec.ofNat 8 (a.toNat / 128) := by
  have htop : a.toNat / 128 % 2 = a.toNat / 128 := by omega
  simpa [highBit, htop] using flagByte_getLsbD a 7

/-! ### Moves, immediate addition and logic (R120 to R125, R173) -/

/-- Settles O32: each of the three is one register write. -/
theorem movesWriteOneRegister : Obligations.MovesWriteOneRegister :=
  ⟨fun x nn => decode_encode (i := .ldImm x nn) rfl, fun x y => decode_encode (i := .ldReg x y) rfl,
    fun x => decode_encode (i := .ldVdt x) rfl, fun x _ s => ⟨_, rfl, writesOnlyReg_setV s x rfl⟩,
    fun x _ s => ⟨_, rfl, writesOnlyReg_setV s x rfl⟩, fun x s => ⟨_, rfl, writesOnlyReg_setV s x rfl⟩⟩

/-- Settles O33: one register write, of the sum. -/
theorem addImmediateWraps : Obligations.AddImmediateWraps :=
  ⟨fun x nn => decode_encode (i := .addImm x nn) rfl,
    fun x _ s => ⟨_, rfl, writesOnlyReg_setV s x (add_eq_ofNat _ _)⟩⟩

/-- Settles O34: one register write each, of a value whose bits are those of the operands combined. -/
theorem logicWritesBitwiseResults : Obligations.LogicWritesBitwiseResults := by
  refine fun x y => ⟨decode_encode (i := .or x y) rfl, decode_encode (i := .and x y) rfl,
    decode_encode (i := .xor x y) rfl, fun s => ⟨?or, ?and, ?xor⟩⟩
  case or => exact ⟨_, _, rfl, writesOnlyReg_setV s x rfl, fun _ => BitVec.getLsbD_or⟩
  case and => exact ⟨_, _, rfl, writesOnlyReg_setV s x rfl, fun _ => BitVec.getLsbD_and⟩
  case xor => exact ⟨_, _, rfl, writesOnlyReg_setV s x rfl, fun _ => BitVec.getLsbD_xor⟩

/-! ### The instructions that write a flag (R126 to R130) -/

/-- Settles O35: the sum, then the carry. -/
theorem addRegisterReportsTheCarry : Obligations.AddRegisterReportsTheCarry :=
  fun x y => ⟨decode_encode (i := .addReg x y) rfl,
    fun s => ⟨_, rfl, writesRegThenFlag_setResultAndFlag s x (add_eq_ofNat _ _) (flagByte_carryOut _ _)⟩⟩

/-- Settles O36: the difference, then the complement of the borrow; SUBN is SUB with its operands exchanged. -/
theorem subtractReportsNotBorrow : Obligations.SubtractReportsNotBorrow :=
  fun x y => ⟨decode_encode (i := .sub x y) rfl, decode_encode (i := .subn x y) rfl,
    fun s => ⟨⟨_, rfl, writesRegThenFlag_setResultAndFlag s x (sub_eq_ofNat _ _) (flagByte_notBorrow _ _)⟩,
      ⟨_, rfl, writesRegThenFlag_setResultAndFlag s x (sub_eq_ofNat _ _) (flagByte_notBorrow _ _)⟩⟩⟩

/-- Settles O37: the decoder drops y, and each shift writes its result, then the bit it lost. -/
theorem shiftsReportTheLostBit : Obligations.ShiftsReportTheLostBit :=
  ⟨fun x y => ⟨decode_formatR8 x y 0x6, decode_formatR8 x y 0xE⟩,
    fun x s => ⟨⟨_, rfl, writesRegThenFlag_setResultAndFlag s x (ushiftRight_one_eq_ofNat _) (flagByte_lowBit _)⟩,
      ⟨_, rfl, writesRegThenFlag_setResultAndFlag s x (shiftLeft_one_eq_ofNat _) (flagByte_highBit _)⟩⟩⟩

/-! ### The random byte (R131) -/

/-- Settles O38: the byte sampled at the counter, masked, is the one register write. -/
theorem randomByteIsMasked : Obligations.RandomByteIsMasked := by
  refine ⟨fun x nn => decode_encode (i := .rnd x nn) rfl,
    fun x s => ⟨_, rfl, fun nn => ⟨_, rfl, rfl, fun k => ?masked, fun r hr => ?others⟩⟩⟩
  case masked => rw [getV_maskedDraw, if_pos rfl, BitVec.getLsbD_and]
  case others => rw [getV_maskedDraw, if_neg hr]

end Sys2Proof.Machine
end

section
/-! PROOFS. The address register and the memory transfers through it: where I goes, what a completed transfer leaves in
memory or in the registers, and the fault of a transfer that may not be made (spec/42_index_memory.md). -/

namespace Sys2Proof.Machine

/-! ### The address register (R140 to R142) -/

theorem byteWord_toNat (b : Byte) : (byteWord b).toNat = b.toNat := by
  simp [byteWord]; omega

/-- The address of a glyph is not reduced: it is at most 255 * 5 (R142). -/
theorem glyphAddress_toNat (b : Byte) : (glyphAddress b).toNat = b.toNat * 5 := by
  rw [glyphAddress, BitVec.toNat_mul, byteWord_toNat]
  simp; omega

/-- Settles O39: each of the three answers the state with I alone set; LD_F's product is too small to wrap. -/
theorem addressRegisterArithmetic : Obligations.AddressRegisterArithmetic := by
  refine ⟨fun nnn => decode_encode (i := .ldIdx nnn) rfl,
    fun x => ⟨decode_encode (i := .addIdx x) rfl, decode_encode (i := .ldF x) rfl⟩,
    fun nnn s => ?ldIdx, fun x s => ?addIdx, fun x s => ?ldF⟩
  case ldIdx => exact ⟨s.setI (immAddress nnn), rfl, rfl, immAddress_toNat nnn⟩
  case addIdx =>
    refine ⟨s.setI (s.i + byteWord (s.getV x)), rfl, rfl, ?_⟩
    rw [setI_i, BitVec.toNat_add, byteWord_toNat]
  case ldF => exact ⟨s.setI (glyphAddress (s.getV x)), rfl, rfl, glyphAddress_toNat _⟩

/-! ### A transfer that faults (R56 to R58)
The checked bytes are those at I to I + n, all checked before any access. -/

theorem ofNat_indexAddress_zero (s : State) : BitVec.ofNat 16 (s.indexAddress 0) = s.i := by
  simp [State.indexAddress]

section
variable {i : Instr} {s go : State} {n : Nat}

/-- A check that fails takes the fault it found and has none of the guarded effect (R58, R207). -/
theorem faultsIn_of_checked {c : Fault} {d : Nat} {found : Option (Fault × Nat)} (h : found = some (c, d)) :
    ∃ t, checked i found s go = .next t ∧ FaultsIn i c (BitVec.ofNat 16 d) s t := by
  subst h
  exact ⟨_, checked_some i c d s go, rfl⟩

/-- The lowest address of a run from I that is beyond memory, as the `daddr` of its fault (R56). -/
theorem ofNat_lowestBeyond (s : State) :
    BitVec.ofNat 16 (if 4096 ≤ s.indexAddress 0 then s.indexAddress 0 else 4096) =
      if 4096 ≤ s.indexAddress 0 then s.i else 0x1000 := by
  split
  · exact ofNat_indexAddress_zero s
  · rfl

/-- Loads that go beyond memory take MemoryBounds. -/
theorem faultsIn_of_reads_beyond (h : 4096 ≤ s.indexAddress n) :
    ∃ t, checked i (firstFault checkRead (s.indexAddress 0) (n + 1)) s go = .next t ∧
      FaultsIn i .memoryBounds (if 4096 ≤ s.indexAddress 0 then s.i else 0x1000) s t := by
  rw [← ofNat_lowestBeyond]
  exact faultsIn_of_checked (firstFault_read_some (Nat.succ_pos n) h)

/-- Stores that go beyond memory take MemoryBounds: a run of 16 bytes at most does not reach back below 0x200. -/
theorem faultsIn_of_stores_beyond (hn : n < 16) (h : 4096 ≤ s.indexAddress n) :
    ∃ t, checked i (firstFault checkWrite (s.indexAddress 0) (n + 1)) s go = .next t ∧
      FaultsIn i .memoryBounds (if 4096 ≤ s.indexAddress 0 then s.i else 0x1000) s t := by
  have hlow : 0x200 ≤ s.indexAddress 0 := by simp only [State.indexAddress] at h ⊢; omega
  rw [← ofNat_lowestBeyond]
  exact faultsIn_of_checked (firstFault_write_beyond (Nat.succ_pos n) hlow h)

/-- Stores that begin below 0x200 take ProtectedStore with I. -/
theorem faultsIn_of_stores_protected (h : s.indexAddress 0 < 0x200) :
    ∃ t, checked i (firstFault checkWrite (s.indexAddress 0) (n + 1)) s go = .next t ∧
      FaultsIn i .protectedStore s.i s t := by
  rw [← ofNat_indexAddress_zero]
  exact faultsIn_of_checked (firstFault_write_protected (Nat.succ_pos n) h)

end

/-! ### A transfer that completes (R143 to R145) -/

/-- A run of stores at I leaves the memory outside it. -/
theorem memorySameOutside_store (s : State) (base : Nat) (bs : List Byte) :
    MemorySameOutside base bs.length s (s.setMem (Memory.store s.mem base bs)) :=
  fun a ha => read_store_outside bs s.mem base a ha

/-- LD_B within 0x200 to 0xFFF stores its digits (R143). -/
theorem execLdB_within {x : Reg} {s : State} (hlo : 0x200 ≤ s.indexAddress 0) (hhi : s.indexAddress 2 < 4096) :
    execLdB x s = .next (s.setMem (Memory.store s.mem (s.indexAddress 0) (decimalDigits (s.getV x)))) := by
  have hf : firstFault checkWrite (s.indexAddress 0) 3 = none := firstFault_write_none.2 (.inr ⟨hlo, hhi⟩)
  rw [execLdB, hf, checked_none]

/-- LD_M within memory loads its registers (R145). -/
theorem execLdM_within {x : Reg} {s : State} (hhi : s.indexAddress x.val < 4096) :
    execLdM x s = .next (s.loadRegs x) := by
  have hf : firstFault checkRead (s.indexAddress 0) (x.val + 1) = none := firstFault_read_none.2 (.inr hhi)
  rw [execLdM, hf, checked_none]

/-- A digit of a byte fits in a byte. -/
theorem map_toNat_decimalDigits (v : Byte) :
    (decimalDigits v).map BitVec.toNat = [v.toNat / 100, v.toNat / 10 % 10, v.toNat % 10] := by
  have := v.isLt
  simp [decimalDigits]
  omega

/-- The stored digits of a byte read back as its digits. -/
theorem read_store_decimalDigits (m : Memory) (v : Byte) {base k : Nat} (hk : k < 3) (hhi : base + 2 < 4096) :
    (Memory.read (Memory.store m base (decimalDigits v)) (base + k)).toNat =
      [v.toNat / 100, v.toNat / 10 % 10, v.toNat % 10][k] := by
  rw [read_store_inside (decimalDigits v) m base k hk hhi]
  exact (List.getElem_map BitVec.toNat).symm.trans (List.getElem_of_eq (map_toNat_decimalDigits v) hk)

/-- Settles O40: the three digits read back from the stored run, or the check loop finds the fault. -/
theorem decimalDigitsAreStored : Obligations.DecimalDigitsAreStored := by
  refine ⟨fun x => decode_encode (i := .ldB x) rfl, fun x s hlo hhi => ?stored,
    fun x s h => faultsIn_of_stores_beyond (n := 2) (by decide) h, fun x s h => faultsIn_of_stores_protected (n := 2) h⟩
  have hdigit {k : Nat} (hk : k < 3) := read_store_decimalDigits s.mem (s.getV x) hk hhi
  exact ⟨_, execLdB_within hlo hhi, rfl, hdigit (k := 0) (by decide), hdigit (k := 1) (by decide),
    hdigit (k := 2) (by decide), memorySameOutside_store s _ (decimalDigits (s.getV x))⟩

/-- Settles O41: the registers read back from the stored run, or the check loop finds the fault. -/
theorem registersAreStored : Obligations.RegistersAreStored := by
  refine ⟨fun x => decode_encode (i := .stM x) rfl, fun x s hlo hhi => ?stored,
    fun x s h => faultsIn_of_stores_beyond x.isLt h, fun x s h => faultsIn_of_stores_protected h⟩
  have hframe := memorySameOutside_store s (s.indexAddress 0) (s.regRun x)
  rw [length_regRun] at hframe
  exact ⟨_, execStM_within hlo hhi, rfl, fun k hk => read_store_regRun s hk hhi, hframe⟩

/-- Settles O42: each register up to V[x] is loaded and the others are kept, or the check loop finds the fault. -/
theorem registersAreLoaded : Obligations.RegistersAreLoaded := by
  refine ⟨fun x => decode_encode (i := .ldM x) rfl, fun x s hhi => ?loaded, fun x s h => faultsIn_of_reads_beyond h⟩
  refine ⟨_, execLdM_within hhi, rfl, fun k hk => ?upTo, fun k hk => ?above⟩
  case upTo => rw [getV_loadRegs, if_pos hk]; rfl
  case above => rw [getV_loadRegs, if_neg (Fin.not_le.2 hk)]

end Sys2Proof.Machine
end

section
/-! PROOFS. The display: which transactions change the framebuffer, and what CLS and DRW do to its cells and to VF
(spec/43_display.md). -/

namespace Sys2Proof.Machine

/-! ### Who changes the framebuffer (R164) -/

/-- A step answers a next state, in every state (R242). -/
theorem step_answers (s : State) : ∃ t, step s = .next t := by
  rw [step]
  rcases fetchDecode s with t | ⟨i, t⟩
  · exact ⟨t, rfl⟩
  · exact exec_answers i t

/-- The step transaction leaves the state that the step answers, with its status (R217). -/
theorem transact_step {s t : State} (h : step s = .next t) : transact .step s = (t, stepStatus t) := by
  simp only [transact, stepCore, h]

/-- A load writes memory alone, when it writes at all (R213). -/
theorem loadProgram_fb (bytes : List Byte) (s : State) : (loadProgram bytes s).1.fb = s.fb := by
  unfold loadProgram
  split <;> rfl

/-- A step that changes FB executes CLS or DRW: the other ways a step can end leave FB alone. -/
theorem fb_writers_of_step {s t : State} (h : step s = .next t) (hc : t.fb ≠ s.fb) :
    Executes s .cls ∨ ∃ x y n, Executes s (.drw x y n) := by
  obtain ⟨-, -, rfl⟩ | ⟨-, -, rfl⟩ | ⟨-, -, -, rfl⟩ | ⟨i, he, hi⟩ := step_cases h
  · exact absurd rfl hc
  · exact absurd rfl hc
  · exact absurd rfl hc
  · obtain rfl | ⟨x, y, n, rfl⟩ := fb_writers hi hc
    · exact .inl he
    · exact .inr ⟨x, y, n, he⟩

/-- Settles O22: reset aside, the transactions other than the step do not touch FB. -/
theorem framebufferChangesOnlyByClsDrwReset : Obligations.FramebufferChangesOnlyByClsDrwReset := by
  intro tr s hc
  cases tr with
  | reset => exact .inl rfl
  | load bytes => exact absurd (loadProgram_fb bytes s) hc
  | step =>
    obtain ⟨t, ht⟩ := step_answers s
    rw [transact_step ht] at hc
    exact .inr ⟨rfl, fb_writers_of_step ht hc⟩
  | tick | setKey k p | readFramebuffer => exact absurd rfl hc

/-! ### CLS (R160) -/

/-- Settles O44: CLS answers the state with the clear framebuffer. -/
theorem clearTurnsEveryCellOff : Obligations.ClearTurnsEveryCellOff :=
  ⟨fun _ => decode_eq_ok_iff rfl (by simp) (by simp),
    fun s => ⟨s.setFb Framebuffer.clear, rfl, rfl, fun k _ => cell_clear k⟩⟩

/-! ### One draw (R161) -/

/-- A word of format D is DRW, whatever its fields. -/
theorem decode_formatRD (x y : Reg) (n : BitVec 4) : decode (formatR 0xD x y n) = .ok (.drw x y n.toNat) := by
  have hwf : (Instr.drw x y n.toNat).wellFormed = true := by simp [Instr.wellFormed]; omega
  simpa [encode] using decode_encode hwf

section
variable {s : State} {x y : Reg} {n k : Nat}

/-- The drawing loop meets the cells under the sprite's set bits. -/
theorem mem_spriteCells_iff_underSprite : k ∈ s.spriteCells x y n ↔ UnderSprite s x y n k := mem_spriteCells

theorem underSprite_lt (h : UnderSprite s x y n k) : k < 2048 :=
  spriteCells_lt k (mem_spriteCells_iff_underSprite.2 h)

/-- DRW with its rows within memory draws them. -/
theorem execDrw_within (h : n = 0 ∨ s.i.toNat + n ≤ 4096) :
    execDrw x y n s = .next (s.draw (s.spriteCells x y n)) := by
  have hf : firstFault checkRead (s.indexAddress 0) n = none := firstFault_read_none.2 h
  rw [execDrw, hf, checked_none]

section
variable (hn : n ≤ 15)
include hn

/-- A cell under a set bit is toggled: no second pixel of the sprite meets it (R161 (b)). -/
theorem cell_draw_of_underSprite (h : UnderSprite s x y n k) :
    (s.draw (s.spriteCells x y n)).fb.cell k = !s.fb.cell k := by
  rw [draw_fb, cell_drawCells_nodup _ (spriteCells_nodup s x y (by omega)) _ (underSprite_lt h)]
  simp [mem_spriteCells_iff_underSprite, h]

theorem cell_draw_of_not_underSprite (hk : k < 2048) (h : ¬ UnderSprite s x y n k) :
    (s.draw (s.spriteCells x y n)).fb.cell k = s.fb.cell k := by
  rw [draw_fb, cell_drawCells_nodup _ (spriteCells_nodup s x y (by omega)) _ hk]
  simp [mem_spriteCells_iff_underSprite, h]

/-- VF is the flag of the collision: whether FB, as the draw found it, was on under a set bit (R161 (b)). -/
theorem getV_vf_draw : (s.draw (s.spriteCells x y n)).getV vf = flagByte ((s.spriteCells x y n).any s.fb.cell) := by
  rw [getV_draw, if_pos rfl, collision_drawCells _ (spriteCells_nodup s x y (by omega)) spriteCells_lt]

theorem getV_vf_draw_of_lit (h : UnderSprite s x y n k) (hon : s.fb.cell k = true) :
    (s.draw (s.spriteCells x y n)).getV vf = 0x01 := by
  have : (s.spriteCells x y n).any s.fb.cell = true :=
    List.any_eq_true.2 ⟨k, mem_spriteCells_iff_underSprite.2 h, hon⟩
  rw [getV_vf_draw hn, this]
  rfl

theorem getV_vf_draw_of_unlit (h : ∀ k, UnderSprite s x y n k → s.fb.cell k = false) :
    (s.draw (s.spriteCells x y n)).getV vf = 0x00 := by
  have : (s.spriteCells x y n).any s.fb.cell = false :=
    List.any_eq_false.2 fun k hk => by simp [h k (mem_spriteCells_iff_underSprite.1 hk)]
  rw [getV_vf_draw hn, this]
  rfl

end

end

/-- Settles O45: the effect of a completed draw on each cell and on VF, or the fault of a sprite row beyond memory. -/
theorem drawTogglesTheCellsUnderTheSprite : Obligations.DrawTogglesTheCellsUnderTheSprite := by
  refine ⟨decode_formatRD, fun x y n s hn hrows => ?drawn, fun x y n s hn _ hbeyond => ?beyond⟩
  case drawn =>
    refine ⟨_, execDrw_within hrows, rfl, fun k _ => cell_draw_of_underSprite hn,
      fun k => cell_draw_of_not_underSprite hn, ?_, ?_, fun r hr => ?_⟩
    · rintro ⟨k, -, hk, hon⟩
      exact getV_vf_draw_of_lit hn hk hon
    · exact fun hoff => getV_vf_draw_of_unlit hn fun k hk => hoff k (underSprite_lt hk) hk
    · rw [getV_draw, if_neg hr]
  case beyond =>
    obtain ⟨m, rfl⟩ := Nat.exists_eq_add_one.2 hn
    exact faultsIn_of_reads_beyond hbeyond

/-! ### The same draw twice (R162) -/

/-- The cells of a sprite depend on I, on its bytes and on the two registers of its position. -/
theorem spriteCells_congr {s s' : State} {x y : Reg} (hmem : s'.mem = s.mem) (hi : s'.i = s.i)
    (hx : s'.getV x = s.getV x) (hy : s'.getV y = s.getV y) (n : Nat) :
    s'.spriteCells x y n = s.spriteCells x y n := by
  simp only [State.spriteCells, State.indexAddress, hmem, hi, hx, hy]

section
variable {s s' : State} {x y : Reg} {n : Nat}
variable (hcells : s'.spriteCells x y n = s.spriteCells x y n) (hfb : s'.fb = (s.draw (s.spriteCells x y n)).fb)
include hcells

theorem underSprite_congr (k : Nat) : UnderSprite s' x y n k ↔ UnderSprite s x y n k := by
  rw [← mem_spriteCells_iff_underSprite, hcells, mem_spriteCells_iff_underSprite]

include hfb

theorem fb_of_second_draw : (s'.draw (s'.spriteCells x y n)).fb = s.fb := by
  rw [draw_fb, hfb, draw_fb, hcells, drawCells_twice]

variable (hn : n ≤ 15)
include hn

/-- The second draw turns off a cell that the first turned on. -/
theorem getV_vf_second_draw_of_turned_on {k : Nat} (hk : k < 2048) (hoff : s.fb.cell k = false)
    (hon : s'.fb.cell k = true) : (s'.draw (s'.spriteCells x y n)).getV vf = 0x01 := by
  have hunder : UnderSprite s x y n k := by
    by_contra hnot
    rw [hfb, cell_draw_of_not_underSprite hn hk hnot, hoff] at hon
    contradiction
  exact getV_vf_draw_of_lit hn ((underSprite_congr hcells k).2 hunder) hon

/-- Where the first draw turned no cell on, it left every cell under the sprite off. -/
theorem getV_vf_second_draw_of_none_turned_on
    (hnone : ∀ k, k < 2048 → s.fb.cell k = false → s'.fb.cell k = false) :
    (s'.draw (s'.spriteCells x y n)).getV vf = 0x00 := by
  refine getV_vf_draw_of_unlit hn fun k hk' => ?_
  have hk := (underSprite_congr hcells k).1 hk'
  cases hs : s.fb.cell k with
  | false => exact hnone k (underSprite_lt hk) hs
  | true => rw [hfb, cell_draw_of_underSprite hn hk, hs]; rfl

end

/-- Settles O46: both draws meet the same cells, and the second finds each of them as the first left it. -/
theorem drawingTwiceRestoresTheFramebuffer : Obligations.DrawingTwiceRestoresTheFramebuffer := by
  intro x y n s t s' u hn hrows ht hfb hmem hi hx hy hu
  have hcells := spriteCells_congr hmem hi hx hy n
  obtain rfl : s.draw (s.spriteCells x y n) = t := by
    simpa [exec, execDrw_within hrows] using ht
  obtain rfl : s'.draw (s'.spriteCells x y n) = u := by
    simpa [exec, execDrw_within (hi ▸ hrows : n = 0 ∨ s'.i.toNat + n ≤ 4096)] using hu
  have hnone := getV_vf_second_draw_of_none_turned_on hcells hfb hn
  rw [← hfb]
  refine ⟨fb_of_second_draw hcells hfb, ?turnedOn, hnone, ?allLit, ?noSetBit⟩
  case turnedOn =>
    rintro ⟨k, hk, hoff, hon⟩
    exact getV_vf_second_draw_of_turned_on hcells hfb hn hk hoff hon
  case allLit =>
    rintro ⟨k, hk, hunder⟩ hlit
    refine ⟨getV_vf_draw_of_lit hn hunder (hlit k hk hunder), hnone fun j hj hoff => ?_⟩
    have hnot : ¬ UnderSprite s x y n j := fun h => by simp [hlit j hj h] at hoff
    rw [hfb, cell_draw_of_not_underSprite hn hj hnot, hoff]
  case noSetBit =>
    intro hempty
    refine ⟨getV_vf_draw_of_unlit hn fun k hk => absurd hk (hempty k), hnone fun j hj hoff => ?_⟩
    rw [hfb, cell_draw_of_not_underSprite hn hj (hempty j), hoff]

/-! ### Wrap at the corner (R163) -/

/-- The cell of each pixel of a sprite at (63, 31): one step past either edge is column 0 or row 0. -/
theorem spriteCell_corner {r c : Nat} (hr : r < 32) (hc : c < 64) :
    spriteCell 63 31 r c = (if r = 0 then 31 else r - 1) * 64 + (if c = 0 then 63 else c - 1) := by
  have hrow : (31 + r) % 32 = if r = 0 then 31 else r - 1 := by split <;> omega
  have hcol : (63 + c) % 64 = if c = 0 then 63 else c - 1 := by split <;> omega
  rw [← hrow, ← hcol]
  rfl

/-- Settles O47: the wrapped cell lies under the set bit, so the draw toggles it. -/
theorem drawWrapsAtTheCorner : Obligations.DrawWrapsAtTheCorner := by
  intro x y n s hx hy hn hrows
  refine ⟨_, execDrw_within hrows, fun r c hr hc hbit => ?_⟩
  have hcell := spriteCell_corner (r := r) (c := c) (by omega) (by omega)
  rw [← hx, ← hy] at hcell
  exact cell_draw_of_underSprite hn ⟨r, c, hr, hc, hbit, hcell.symm⟩

end Sys2Proof.Machine
end

section
/-! PROOFS. Keys and timers: the skips on a key with their index check, the blocking wait for the lowest key, and the writes
of the timers (spec/44_keys_timers.md). -/

namespace Sys2Proof.Machine

/-! ### LD_K (R172) -/

section
variable {s : State}

/-- The scan finds the pressed key below which none is down. -/
theorem lowestKey_of_lowest {k : Fin 16} (hk : s.key.getLsbD k = true)
    (hbelow : ∀ j, j < k.val → s.key.getLsbD j = false) : s.lowestKey = some k.val :=
  List.find?_range_eq_some.2 ⟨hk, List.mem_range.2 k.isLt, fun j hj => by simp [State.keyDown, hbelow j hj]⟩

theorem lowestKey_of_none_down (h : ∀ k : Fin 16, s.key.getLsbD k = false) : s.lowestKey = none :=
  List.find?_range_eq_none.2 fun j hj => by simp [State.keyDown, h ⟨j, hj⟩]

end

/-- LD_K's rewind undoes the advance of the fetch, at every PC. -/
theorem rewindPc_advancePc (s : State) : s.advancePc.rewindPc = s := by
  simp [State.rewindPc, State.advancePc, State.setPc]

/-- Settles O49: the scan's two outcomes; the wait's rewind meets the advance of its own step. -/
theorem keyWaitTakesTheLowestKey : Obligations.KeyWaitTakesTheLowestKey := by
  refine ⟨fun x => decode_encode (i := .ldK x) rfl, fun x s k hk hbelow => ?keyDown, fun x s h => ?wait,
    fun x s he h => ?waitingStep⟩
  case keyDown => exact ⟨_, execLdK_some (lowestKey_of_lowest hk hbelow), writesOnlyReg_setV s x rfl⟩
  case wait => exact execLdK_none (lowestKey_of_none_down h)
  case waitingStep =>
    have hnone : s.advancePc.lowestKey = none := lowestKey_of_none_down h
    calc step s = execLdK x s.advancePc := step_of_executes he
      _ = .next s.advancePc.rewindPc := execLdK_none hnone
      _ = .next s := by rw [rewindPc_advancePc]

/-! ### SKP and SKNP (R170, R171) -/

section
variable {k : Byte}

theorem checkKey_of_le (h : k.toNat ≤ 15) : checkKey k = none := if_neg (Nat.not_lt.2 h)

theorem checkKey_of_gt (h : 15 < k.toNat) : checkKey k = some (.keyIndex, k.toNat) := if_pos h

end

section
variable {x : Reg} {s : State} (h : (s.getV x).toNat ≤ 15)
include h

/-- With V[x] at most 15 SKP skips when the key is down (R170). -/
theorem execSkp_of_le : execSkp x s =
    .next { s with pc := if s.key.getLsbD (s.getV x).toNat = true then s.pc + 2 else s.pc } := by
  rw [execSkp, checkKey_of_le h, checked_none, ← skipIf_decide, Bool.decide_eq_true, State.keyDown]

/-- With V[x] at most 15 SKNP skips when the key is up (R171). -/
theorem execSknp_of_le : execSknp x s =
    .next { s with pc := if s.key.getLsbD (s.getV x).toNat = true then s.pc else s.pc + 2 } := by
  rw [execSknp, checkKey_of_le h, checked_none, ← skipIf_decide_not, decide_not, Bool.decide_eq_true, State.keyDown]

end

/-- Settles O48: the index check passes and the key's level decides the skip, or the check finds KeyIndex. -/
theorem keySkipsTestTheNamedKey : Obligations.KeySkipsTestTheNamedKey := by
  refine fun x => ⟨decode_encode (i := .skp x) rfl, decode_encode (i := .sknp x) rfl,
    fun s => ⟨fun h => ?named, fun h => ?beyond⟩⟩
  case named => exact ⟨execSkp_of_le h, execSknp_of_le h⟩
  case beyond => exact ⟨faultsIn_of_checked (checkKey_of_gt h), faultsIn_of_checked (checkKey_of_gt h)⟩

/-! ### LD_DT and LD_ST (R174, R175) -/

/-- Settles O50: each answers the state with its timer alone set. -/
theorem timerWritesReplaceTheCount : Obligations.TimerWritesReplaceTheCount :=
  fun x => ⟨decode_encode (i := .ldDt x) rfl, decode_encode (i := .ldSt x) rfl, fun _ => ⟨rfl, rfl⟩⟩

end Sys2Proof.Machine
end

section
/-! PROOFS. Faults and the host's transactions: what each transaction does to the state and returns, the records a step
can latch, and what every transaction keeps (spec/60_exceptions.md). -/

namespace Sys2Proof.Machine

/-! ### Load (R213) -/

section
variable {bytes : List Byte}

theorem transact_load_of_le (s : State) (h : bytes.length ≤ 3584) :
    transact (.load bytes) s = (s.setMem (Memory.store s.mem 0x200 bytes), .loadOk) := if_neg (Nat.not_lt.2 h)

theorem transact_load_of_gt (s : State) (h : 3584 < bytes.length) :
    transact (.load bytes) s = (s, .loadOverflow) := if_pos h

end

/-- Settles O52: the longest program that is accepted ends with memory, so every byte of it is read back. -/
theorem loadCopiesOrRejects : Obligations.LoadCopiesOrRejects := by
  refine fun bytes s => ⟨fun h => transact_load_of_gt s h,
    fun h => ⟨_, transact_load_of_le s h, rfl, fun k hk => ?_, ?_⟩⟩
  · exact read_store_inside bytes s.mem 0x200 k hk (by omega)
  · exact memorySameOutside_store s 0x200 bytes

/-! ### The invariant (R51, R213) -/

/-- A load lies above the bytes that the invariant names, or is rejected whole. -/
theorem load_keeps_inv (bytes : List Byte) {s : State} (hs : Inv s) : Inv (transact (.load bytes) s).1 := by
  rcases Nat.lt_or_ge 3584 bytes.length with h | h
  · rwa [transact_load_of_gt s h]
  · rw [transact_load_of_le s h]
    refine ⟨store_wf 0x200 bytes hs.memory_wf, fun a ha => ?_, hs.pc_bound, hs.stack_bound⟩
    exact (read_store_outside bytes s.mem 0x200 a (.inl ha)).trans (hs.low_memory a ha)

/-- Settles O56: reset makes the invariant, load and step keep it, and the other three write nothing that it names. -/
theorem everyTransactionKeepsTheInvariant : Obligations.EveryTransactionKeepsTheInvariant := by
  intro tr s hs
  cases tr with
  | reset =>
    obtain ⟨hmem, hlow, hpc, hstack⟩ := invariantHoldsAtReset
    exact ⟨hmem, hlow, hpc, hstack⟩
  | load bytes => exact load_keeps_inv bytes hs
  | step =>
    obtain ⟨t, ht⟩ := step_answers s
    rw [transact_step ht]
    exact everyStepKeepsTheInvariant s t hs ht
  | tick | setKey k p | readFramebuffer =>
    obtain ⟨hmem, hlow, hpc, hstack⟩ := hs
    exact ⟨hmem, hlow, hpc, hstack⟩

/-! ### The status of a step (R35, R217) -/

theorem stepStatus_of_clear {s : State} (h : s.fault = none) : stepStatus s = .stepOk := by
  simp only [stepStatus, h]

theorem stepStatus_of_fault {s : State} {r : FaultRecord} (h : s.fault = some r) : stepStatus s = .stepFault r := by
  simp only [stepStatus, h]

/-! ### Tick (R215, R225) -/

theorem countDown_toNat (b : Byte) : (countDown b).toNat = b.toNat - 1 := by
  unfold countDown
  split
  · simp [*]
  · bv_omega

theorem transact_tick (s : State) :
    transact .tick s = ((s.setDt (countDown s.dt)).setSt (countDown s.st), .toneStop (s.st = 1)) := rfl

/-- A step transaction returns a status, which is not a tone_stop. -/
theorem stepStatus_ne_toneStop (s : State) (raised : Bool) : stepStatus s ≠ .toneStop raised := by
  rcases hf : s.fault with _ | r
  · simp [stepStatus_of_clear hf]
  · simp [stepStatus_of_fault hf]

/-- Only a tick that finds ST = 1 raises tone_stop (R225). -/
theorem tick_of_toneStop_raised {tr : Transaction} {s : State} (h : (transact tr s).2 = .toneStop true) :
    tr = .tick ∧ s.st = 0x01 := by
  cases tr with
  | tick => exact ⟨rfl, by simpa [transact_tick] using h⟩
  | step =>
    obtain ⟨t, ht⟩ := step_answers s
    rw [transact_step ht] at h
    exact absurd h (stepStatus_ne_toneStop t true)
  | load bytes =>
    rcases Nat.lt_or_ge 3584 bytes.length with hl | hl
    · rw [transact_load_of_gt s hl] at h; cases h
    · rw [transact_load_of_le s hl] at h; cases h
  | reset | setKey k p | readFramebuffer => cases h

/-- Settles O53: each counter by `countDown`, and tone_stop by who returns one. -/
theorem tickCountsBothTimersDown : Obligations.TickCountsBothTimersDown := by
  refine ⟨fun s => ⟨(s.setDt (countDown s.dt)).setSt (countDown s.st), ?counts, rfl, countDown_toNat s.dt,
    countDown_toNat s.st⟩, fun tr s h => ?raised, fun s => ?level⟩
  case counts =>
    have hone : (s.st = 1) ↔ s.st.toNat = 1 := BitVec.toNat_inj.symm
    rw [transact_tick, decide_eq_decide.2 hone]
  case raised =>
    obtain ⟨rfl, hst⟩ := tick_of_toneStop_raised h
    exact ⟨rfl, hst, by simp [transact_tick, hst, countDown]⟩
  case level =>
    have hzero : s.st = 0 ↔ s.st.toNat = 0 := BitVec.toNat_inj.symm
    rw [soundOn, decide_eq_true_iff, Nat.pos_iff_ne_zero, Ne, hzero]

/-! ### Set key and the framebuffer read (R214, R216) -/

/-- Setting a key changes the level of that key alone (R214). -/
theorem keyDown_setKey (s : State) (k j : Fin 16) (p : Bool) :
    (s.setKey k p).keyDown j = if j = k then p else s.keyDown j := by
  by_cases h : j = k
  · subst h
    cases p <;> simp [State.keyDown, State.setKey]
  · have hval : (j : Nat) ≠ k := Fin.val_ne_of_ne h
    cases p <;> simp [State.keyDown, State.setKey, h, hval]

/-- Settles O54, key by key. -/
theorem setKeySetsOneKey : Obligations.SetKeySetsOneKey :=
  fun k p s => ⟨s.setKey k p, rfl, rfl, by rw [keyDown_setKey, if_pos rfl],
    fun j hj => by rw [keyDown_setKey, if_neg hj]⟩

/-- The cell of column cx and row cy is bit cx of row cy (R29). -/
theorem cell_of_row_and_column (f : Framebuffer) {cy cx : Nat} (hy : cy < 32) (hx : cx < 64) :
    f.cell (cy * 64 + cx) = f[cy].getLsbD cx := by
  have hdiv : (cy * 64 + cx) / 64 = cy := by omega
  have hmod : (cy * 64 + cx) % 64 = cx := by omega
  simp [Framebuffer.cell, hdiv, hmod, hy]

/-- Settles O55: what is returned is FB itself, of which each bit is a cell. -/
theorem framebufferReadChangesNothing : Obligations.FramebufferReadChangesNothing :=
  fun s => ⟨s.fb, rfl, fun _ _ hy hx => (cell_of_row_and_column s.fb hy hx).symm⟩

/-! ### A latched fault (R208) -/

theorem step_of_faulted {s : State} {r : FaultRecord} (h : s.fault = some r) : step s = .next s := by
  rw [step, fetchDecode_faulted h]

/-- The transactions other than reset and step neither look at FAULT nor change it. -/
theorem transact_with_fault {tr : Transaction} (hreset : tr ≠ .reset) (hstep : tr ≠ .step) (s : State)
    (f : Option FaultRecord) :
    transact tr { s with fault := f } = ({ (transact tr s).1 with fault := f }, (transact tr s).2) := by
  cases tr with
  | reset => exact absurd rfl hreset
  | step => exact absurd rfl hstep
  | load bytes =>
    rcases Nat.lt_or_ge 3584 bytes.length with h | h
    · rw [transact_load_of_gt _ h, transact_load_of_gt _ h]
    · rw [transact_load_of_le _ h, transact_load_of_le _ h]; rfl
  | tick | setKey k p | readFramebuffer => rfl

theorem fault_of_transact {tr : Transaction} (hreset : tr ≠ .reset) (hstep : tr ≠ .step) (s : State) :
    (transact tr s).1.fault = s.fault :=
  congrArg (·.1.fault) (transact_with_fault hreset hstep s s.fault)

/-- Settles O13: a faulted step goes no further than the check of FAULT, and of the others only reset touches it. -/
theorem faultIsTerminalUntilReset : Obligations.FaultIsTerminalUntilReset := by
  intro s r hr
  have hstep : transact .step s = (s, .stepFault r) := by
    rw [transact_step (step_of_faulted hr), stepStatus_of_fault hr]
  refine ⟨step_of_faulted hr, hstep, fun t ht => ?latched, rfl, fun t ht hts => ?sameAsClear⟩
  case latched =>
    by_cases hts : t = .step
    · rw [hts, hstep, hr]
    · rw [fault_of_transact ht hts, hr]
  case sameAsClear =>
    have hs : { { s with fault := none } with fault := some r } = s := by rw [← hr]
    have heq := transact_with_fault ht hts { s with fault := none } (some r)
    rw [hs] at heq
    rw [heq]
    exact ⟨rfl, rfl⟩

/-- Settles O17: a run whose first state has a fault stays there, so a run that ends with FAULT clear began so. -/
theorem safeRunsAreThoseWithoutAFault : Obligations.SafeRunsAreThoseWithoutAFault := by
  intro k
  induction k with
  | zero => exact fun s => ⟨fun h => ⟨s, rfl, h⟩, fun ⟨t, ht, hf⟩ => by cases ht; exact hf⟩
  | succ k ih =>
    intro s
    obtain ⟨t, ht⟩ := step_answers s
    rw [run_succ ht, ← ih t]
    constructor
    · rintro ⟨-, t', ht', hrun⟩
      obtain rfl : t = t' := by simpa [ht] using ht'
      exact hrun
    · intro hrun
      refine ⟨?_, t, ht, hrun⟩
      rcases hf : s.fault with _ | r
      · rfl
      · obtain rfl : s = t := by simpa [step_of_faulted hf] using ht
        obtain ⟨u, hu, huf⟩ := (ih s).1 hrun
        rw [run_of_fixed ht k] at hu
        cases hu
        exact absurd huf (by simp [hf])

/-! ### The record of a fault (R200) -/

/-- The illegal words are those of no row of the opcode map (R76, R84). -/
theorem rowsHit_eq_nil_iff {w : Word} : rowsHit w = [] ↔ decode w = .error .illegalInstruction := by
  obtain ⟨hok, herror⟩ := decodeAgreesWithTheOpcodeMap w
  refine ⟨fun h => ?_, herror⟩
  obtain ⟨i, hi, -⟩ | hd := decodeIsTotalAndWellFormed w
  · simp [hok i hi] at h
  · exact hd

/-- An illegal word is a fault of the decode, at PC with the word (R201). -/
theorem step_of_illegal {s : State} (hf : s.fault = none) (hpc : s.pc.toNat ≤ 4094)
    (hd : decode (fetchedWord s) = .error .illegalInstruction) :
    step s = .next { s with fault := some ⟨.illegalInstruction, s.pc, fetchedWord s, 0x0000⟩ } := by
  simp only [step, fetchDecode_within hf hpc, hd]
  rfl

/-- Settles O10: the state after the step has the record latched, so its status is that record. -/
theorem illegalWordFaults : Obligations.IllegalWordFaults := by
  intro s hf hpc hd r
  have hstep : step s = .next { s with fault := some r } := step_of_illegal hf hpc hd
  exact ⟨hstep, (transact_step hstep).trans (by rw [stepStatus_of_fault rfl])⟩

/-- An instruction that can fault has one word, so the word of its record is the one fetched (R78). -/
theorem encode_of_executes {s : State} {i : Instr} (he : Executes s i) (hi : canFault i = true) :
    encode i = fetchedWord s := by
  obtain ⟨-, -, hd⟩ := he
  obtain hw | ⟨x, y, rfl, -⟩ | ⟨x, y, rfl, -⟩ := encode_of_decode hd
  · exact hw
  · cases hi
  · cases hi

/-- The step of an instruction that faults at the advanced PC changes FAULT alone, to a record with PC and the fetched
word (R207). -/
theorem step_of_faultsIn {s : State} {i : Instr} {c : Fault} {d : Word} (he : Executes s i) (hi : canFault i = true)
    (h : ∃ t, exec i s.advancePc = .next t ∧ FaultsIn i c d s.advancePc t) :
    step s = .next { s with fault := some ⟨c, s.pc, fetchedWord s, d⟩ } := by
  obtain ⟨t, ht, rfl⟩ := h
  have hpc : s.advancePc.pc - 2 = s.pc := congrArg State.pc (rewindPc_advancePc s)
  rw [step_of_executes he, ht, hpc, encode_of_executes he hi]
  rfl

theorem canFault_of_dataBytes {i : Instr} (h : 1 ≤ dataBytes i) : canFault i = true := by
  cases i with
  | drw _ _ _ | ldB _ | stM _ | ldM _ => rfl
  | _ => cases h

/-- Data accesses that go beyond memory take MemoryBounds with the lowest address there (R56). -/
theorem faultsIn_of_data_beyond {i : Instr} {s : State} (h : 1 ≤ dataBytes i) (hhi : 4096 < s.i.toNat + dataBytes i) :
    ∃ t, exec i s = .next t ∧ FaultsIn i .memoryBounds (if 4096 ≤ s.i.toNat then s.i else 0x1000) s t := by
  cases i with
  | drw x y n =>
    obtain ⟨m, rfl⟩ : ∃ m, n = m + 1 := ⟨n - 1, (Nat.sub_add_cancel h).symm⟩
    exact faultsIn_of_reads_beyond (Nat.le_of_lt_succ hhi)
  | ldB x => exact faultsIn_of_stores_beyond (n := 2) (by decide) (Nat.le_of_lt_succ hhi)
  | stM x => exact faultsIn_of_stores_beyond x.isLt (Nat.le_of_lt_succ hhi)
  | ldM x => exact faultsIn_of_reads_beyond (Nat.le_of_lt_succ hhi)
  | _ => cases h

/-- Each row of the table says what the step does: its record is latched, and nothing else changes (R200, R207). -/
theorem step_of_faultRow {s : State} {r : FaultRecord} (hf : s.fault = none) (h : FaultRow s r) :
    step s = .next { s with fault := some r } := by
  cases h with
  | illegalInstruction hpc hrows => exact step_of_illegal hf hpc (rowsHit_eq_nil_iff.1 hrows)
  | stackOverflow nnn he hsp =>
    have hfull : s.advancePc.sp.val = 16 := hsp
    exact step_of_faultsIn he rfl ⟨_, execCall_of_full hfull, rfl⟩
  | stackUnderflow he hsp =>
    have hempty : s.advancePc.sp.val = 0 := hsp
    rw [show (0x00EE : Word) = fetchedWord s from encode_of_executes he rfl]
    exact step_of_faultsIn he rfl ⟨_, execRet_of_empty hempty, rfl⟩
  | memoryBoundsFetch hpc => exact fetchBeyondMemoryFaults s hf hpc
  | memoryBoundsData i he hn hhi => exact step_of_faultsIn he (canFault_of_dataBytes hn) (faultsIn_of_data_beyond hn hhi)
  | protectedStore x he hlo =>
    rcases he with he | he
    · exact step_of_faultsIn he rfl (faultsIn_of_stores_protected (n := 2) hlo)
    · exact step_of_faultsIn he rfl (faultsIn_of_stores_protected hlo)
  | keyIndex x he hk =>
    rw [← BitVec.ofNat_toNat]
    rcases he with he | he
    · exact step_of_faultsIn he rfl (faultsIn_of_checked (checkKey_of_gt hk))
    · exact step_of_faultsIn he rfl (faultsIn_of_checked (checkKey_of_gt hk))

/-- The record of every row has the address of the step's instruction. -/
theorem iaddr_of_faultRow {s : State} {r : FaultRecord} (h : FaultRow s r) : r.iaddr = s.pc := by cases h <;> rfl

/-! ### Every fault is in the table (R200) -/

/-- A checked access that latches a fault has found one. -/
theorem found_of_checked {i : Instr} {found : Option (Fault × Nat)} {s go t : State}
    (h : checked i found s go = .next t) (hgo : go.fault = none) (ht : t.fault ≠ none) : found ≠ none := by
  rintro rfl
  cases h
  exact ht hgo

section
variable {s : State} {i : Instr} (he : Executes s i)
include he

/-- Reads that were refused went beyond memory. -/
theorem exists_faultRow_of_reads (h : firstFault checkRead s.i.toNat (dataBytes i) ≠ none) : ∃ r, FaultRow s r := by
  rw [Ne, firstFault_read_none] at h
  exact ⟨_, .memoryBoundsData i he (by omega) (by omega)⟩

/-- Stores that were refused began below 0x200 or went beyond memory. -/
theorem exists_faultRow_of_stores {x : Reg} (hi : i = .ldB x ∨ i = .stM x)
    (h : firstFault checkWrite s.i.toNat (dataBytes i) ≠ none) : ∃ r, FaultRow s r := by
  rw [Ne, firstFault_write_none] at h
  by_cases hlo : s.i.toNat < 0x200
  · have hx : Executes s (.ldB x) ∨ Executes s (.stM x) := by
      obtain rfl | rfl := hi
      · exact .inl he
      · exact .inr he
    exact ⟨_, .protectedStore x hx hlo⟩
  · exact ⟨_, .memoryBoundsData i he (by omega) (by omega)⟩

/-- A key index that was refused is above 15. -/
theorem exists_faultRow_of_key {x : Reg} (hi : i = .skp x ∨ i = .sknp x) (h : checkKey (s.getV x) ≠ none) :
    ∃ r, FaultRow s r := by
  have hk : 15 < (s.getV x).toNat := by_contra fun hk => h (checkKey_of_le (Nat.not_lt.1 hk))
  obtain rfl | rfl := hi
  · exact ⟨_, .keyIndex x (.inl he) hk⟩
  · exact ⟨_, .keyIndex x (.inr he) hk⟩

/-- An instruction that latches a fault is in the table: by the instructions that can fault and their checks. -/
theorem exists_faultRow_of_exec {t : State} (h : exec i s.advancePc = .next t) (ht : t.fault ≠ none) :
    ∃ r, FaultRow s r := by
  have hadv : s.advancePc.fault = none := he.1
  have hi : canFault i = true := fault_writers h (by rwa [hadv])
  cases i with
  | ret =>
    by_cases hsp : s.sp.val = 0
    · exact ⟨_, .stackUnderflow he hsp⟩
    · have hpos : 0 < s.advancePc.sp.val := Nat.pos_of_ne_zero hsp
      rw [exec, execRet, dif_pos hpos] at h
      cases h
      exact absurd hadv ht
  | call nnn =>
    by_cases hsp : s.advancePc.sp.val < 16
    · rw [exec, execCall_of_lt hsp] at h
      cases h
      exact absurd hadv ht
    · have hfull : s.sp.val = 16 := Nat.le_antisymm (Nat.le_of_lt_succ s.sp.isLt) (Nat.not_lt.1 hsp)
      exact ⟨_, .stackOverflow nnn he hfull⟩
  | drw x y n => exact exists_faultRow_of_reads he (found_of_checked h hadv ht)
  | ldM x => exact exists_faultRow_of_reads he (found_of_checked h hadv ht)
  | ldB x => exact exists_faultRow_of_stores he (.inl rfl) (found_of_checked h hadv ht)
  | stM x => exact exists_faultRow_of_stores he (.inr rfl) (found_of_checked h hadv ht)
  | skp x => exact exists_faultRow_of_key he (.inl rfl) (found_of_checked h ((skipIf_fault _ _).trans hadv) ht)
  | sknp x => exact exists_faultRow_of_key he (.inr rfl) (found_of_checked h ((skipIf_fault _ _).trans hadv) ht)
  | _ => cases hi

end

/-- A step that latches a fault is in the table: by what a step can do. -/
theorem exists_faultRow_of_step {s t : State} (hf : s.fault = none) (h : step s = .next t) (ht : t.fault ≠ none) :
    ∃ r, FaultRow s r := by
  obtain ⟨r, hr, -⟩ | ⟨-, hpc, -⟩ | ⟨-, hpc, ⟨e, hd⟩, -⟩ | ⟨i, he, hi⟩ := step_cases h
  · simp [hf] at hr
  · exact ⟨_, .memoryBoundsFetch hpc⟩
  · obtain ⟨-, rfl⟩ := decode_error.1 hd
    exact ⟨_, .illegalInstruction hpc (rowsHit_eq_nil_iff.2 hd)⟩
  · exact exists_faultRow_of_exec he hi ht

/-- From a state whose FAULT is clear a step leaves it clear, or latches the record of a row and changes nothing else. -/
theorem step_clear_or_faultRow {s t : State} (hf : s.fault = none) (h : step s = .next t) :
    t.fault = none ∨ ∃ r, FaultRow s r ∧ t = { s with fault := some r } := by
  by_cases ht : t.fault = none
  · exact .inl ht
  · obtain ⟨r, hr⟩ := exists_faultRow_of_step hf h ht
    exact .inr ⟨r, hr, by simpa [h] using step_of_faultRow hf hr⟩

/-- Settles O11: a row fixes what the step does, and no fault is outside the table. -/
theorem faultRecordsAreThoseOfTheTable : Obligations.FaultRecordsAreThoseOfTheTable := by
  refine ⟨rfl, fun s t r hf h => ⟨fun ht => ?inTable, fun hr => ?latched⟩, fun tr s htr hf => ?others⟩
  case inTable =>
    obtain hclear | ⟨r', hr', rfl⟩ := step_clear_or_faultRow hf h
    · simp [hclear] at ht
    · cases ht
      exact hr'
  case latched =>
    rw [step_of_faultRow hf hr] at h
    cases h
    rfl
  case others =>
    by_cases hreset : tr = .reset
    · subst hreset
      rfl
    · rw [fault_of_transact hreset htr, hf]

/-- Settles O12: the status of the transaction is the latch after it. -/
theorem faultingStepCommitsNothing : Obligations.FaultingStepCommitsNothing := by
  intro s t hf h
  have htr := transact_step h
  obtain hclear | ⟨r, hr, rfl⟩ := step_clear_or_faultRow hf h
  · exact .inl ⟨hclear, by rw [htr, stepStatus_of_clear hclear]⟩
  · exact .inr ⟨r, hr, rfl, iaddr_of_faultRow hr, by rw [htr, stepStatus_of_fault rfl]⟩

end Sys2Proof.Machine
end

section
/-! PROOFS. Reset and hazards: the states that every transaction sequence keeps within bounds, the steps that stay in place,
the program that has stopped, and the run through empty memory (spec/70_reset_and_hazards.md). -/

namespace Sys2Proof.Machine

/-! ### Steps that stay in place (R242) -/

/-- PC does not come back to the instruction's own address by the advance and a skip: it is 2 or 4 beyond it (R100, R101). -/
theorem skipIf_advancePc_pc_ne (s : State) (c : Bool) : (s.advancePc.skipIf c).pc ≠ s.pc := by
  rw [skipIf_pc, advancePc_pc]
  split <;> bv_omega

theorem advancePc_pc_ne (s : State) : s.advancePc.pc ≠ s.pc := skipIf_advancePc_pc_ne s false

/-- LD_K waits only while KEY is all 0 (R172). -/
theorem key_eq_zero_of_lowestKey {s : State} (h : s.lowestKey = none) : s.key = 0 := by
  refine BitVec.eq_of_getLsbD_eq fun j hj => ?_
  simpa [State.keyDown] using List.find?_range_eq_none.1 h j hj

/-- A CALL or RET that does not fault moves SP (R102, R104). -/
theorem sp_ne_of_call_or_ret {i : Instr} {s t : State} (hi : (∃ nnn, i = .call nnn) ∨ i = .ret)
    (h : exec i s = .next t) (hf : t.fault = none) : t.sp ≠ s.sp := by
  obtain ⟨nnn, rfl⟩ | rfl := hi
  · by_cases hroom : s.sp.val < 16
    · rw [exec, execCall_of_lt hroom] at h
      cases h
      simp [State.push, Fin.ext_iff]
    · rw [exec, execCall_of_full (by omega)] at h
      cases h
      cases hf
  · by_cases hempty : s.sp = 0
    · rw [exec, execRet_of_empty (congrArg Fin.val hempty)] at h
      cases h
      cases hf
    · obtain ⟨k, hk⟩ := Fin.exists_succ_eq_of_ne_zero hempty
      rw [exec, execRet_of_eq_succ hk.symm] at h
      cases h
      rw [← hk]
      exact k.castSucc_lt_succ.ne

/-- A key skip that does not fault leaves the instruction's own address (R170, R171). -/
theorem pc_ne_of_checked_skip {i : Instr} {found : Option (Fault × Nat)} {s t : State} {c : Bool}
    (h : checked i found s.advancePc (s.advancePc.skipIf c) = .next t) (hf : t.fault = none) : t.pc ≠ s.pc := by
  obtain ⟨-, rfl⟩ | ⟨_, _, -, rfl⟩ := checked_cases h
  · exact skipIf_advancePc_pc_ne s c
  · cases hf

/-- The instructions that move neither PC nor SP (R242): such an instruction writes PC, since the advance alone would have
moved it, and of those that write PC the skips go further on, and CALL and RET move SP. -/
theorem stays_in_place_of_exec {i : Instr} {s t : State} (h : exec i s.advancePc = .next t) (hf : t.fault = none)
    (hpc : t.pc = s.pc) (hsp : t.sp = s.sp) :
    (∃ nnn, i = .jp nnn ∧ nnn.toNat = s.pc.toNat) ∨
    (∃ nnn, i = .jpV0 nnn ∧ nnn.toNat + (s.getV 0).toNat = s.pc.toNat) ∨
    (∃ x, i = .ldK x ∧ s.key = 0) := by
  have hmoved : t.pc ≠ s.advancePc.pc := hpc ▸ (advancePc_pc_ne s).symm
  have hdepth : t.sp = s.advancePc.sp := hsp
  have hwrites : writesPc i = true := (pc_writers h hmoved).resolve_right fun ⟨_, hfault⟩ => hfault hf
  cases i with
  | jp nnn =>
    cases h
    exact .inl ⟨nnn, rfl, by rw [← hpc, setPc_pc, immAddress_toNat]⟩
  | jpV0 nnn =>
    cases h
    exact .inr (.inl ⟨nnn, rfl, by rw [← hpc, setPc_pc, immAddress_add_byteWord_toNat, getV_advancePc]⟩)
  | ldK x =>
    rcases hk : s.advancePc.lowestKey with _ | k
    · exact .inr (.inr ⟨x, rfl, key_eq_zero_of_lowestKey hk⟩)
    · rw [exec, execLdK_some hk] at h
      cases h
      exact absurd hpc (advancePc_pc_ne s)
  | call nnn => exact absurd hdepth (sp_ne_of_call_or_ret (.inl ⟨nnn, rfl⟩) h hf)
  | ret => exact absurd hdepth (sp_ne_of_call_or_ret (.inr rfl) h hf)
  | seImm _ _ | sneImm _ _ | seReg _ _ | sneReg _ _ =>
    cases h
    exact absurd hpc (skipIf_advancePc_pc_ne s _)
  | skp _ | sknp _ => exact absurd hpc (pc_ne_of_checked_skip h hf)
  | _ => cases hwrites

/-- An instruction that sets PC alone, back to its own address, undoes the advance. -/
theorem setPc_advancePc_of_toNat_eq {s : State} {w : Word} (h : w.toNat = s.pc.toNat) : s.advancePc.setPc w = s := by
  obtain rfl := BitVec.eq_of_toNat_eq h
  rfl

theorem step_of_self_jp {s : State} {nnn : Addr12} (he : Executes s (.jp nnn)) (h : nnn.toNat = s.pc.toNat) :
    step s = .next s :=
  (step_of_executes he).trans (congrArg _ (setPc_advancePc_of_toNat_eq ((immAddress_toNat nnn).trans h)))

theorem step_of_self_jpV0 {s : State} {nnn : Addr12} (he : Executes s (.jpV0 nnn))
    (h : nnn.toNat + (s.getV 0).toNat = s.pc.toNat) : step s = .next s :=
  (step_of_executes he).trans
    (congrArg _ (setPc_advancePc_of_toNat_eq ((immAddress_add_byteWord_toNat nnn (s.getV 0)).trans h)))

theorem step_of_waiting_ldK {s : State} {x : Reg} (he : Executes s (.ldK x)) (h : s.key = 0) : step s = .next s := by
  obtain ⟨-, -, -, hwait⟩ := keyWaitTakesTheLowestKey
  exact hwait x s he fun k => by simp [h]

/-- Settles O14: the instruction of a step that moves neither PC nor SP is one of three, and each of them undoes the
advance. -/
theorem onlyThreeFormsStayInPlace : Obligations.OnlyThreeFormsStayInPlace := by
  refine ⟨step_answers, fun s t i he h hf hpc hsp => ?_, fun _ _ => step_of_self_jp, fun _ _ => step_of_self_jpV0,
    fun _ _ => step_of_waiting_ldK⟩
  rw [step_of_executes he] at h
  exact stays_in_place_of_exec h hf hpc hsp

/-! ### A program that has stopped (R241) -/

theorem setWidth_toNat_of_le {w : Word} (h : w.toNat ≤ 4094) : (w.setWidth 12).toNat = w.toNat := by
  rw [BitVec.toNat_setWidth, Nat.mod_eq_of_lt (by omega)]

/-- The word 0x1000 | PC at an address PC is the jump to PC (R103, R241). -/
theorem executes_jp_of_atSelfJump {s : State} (h : AtSelfJump s) : Executes s (.jp (s.pc.setWidth 12)) := by
  obtain ⟨hf, hpc, hw⟩ := h
  have hword : fetchedWord s = encode (.jp (s.pc.setWidth 12)) := by
    have hsame : immAddress (s.pc.setWidth 12) = s.pc :=
      BitVec.eq_of_toNat_eq ((immAddress_toNat _).trans (setWidth_toNat_of_le hpc))
    rw [hw, encode, formatA_places_nnn, ← immAddress, hsame]
    rfl
  exact ⟨hf, hpc, by rw [hword, decode_encode rfl]⟩

/-- Settles O15: the jump goes to its own address, so its step leaves the state as it is. -/
theorem selfJumpStaysForEver : Obligations.SelfJumpStaysForEver := by
  intro s h k
  have ⟨_, hpc, _⟩ := h
  exact run_of_fixed (step_of_self_jp (executes_jp_of_atSelfJump h) (setWidth_toNat_of_le hpc)) k

/-! ### Empty memory (R77, R233) -/

/-- A run takes one more step at its end. -/
theorem run_succ_of_run {s t u : State} {k : Nat} (hrun : Host.Core.run Sys2Proof.core k s = .next t)
    (hstep : step t = .next u) : Host.Core.run Sys2Proof.core (k + 1) s = .next u := by
  induction k generalizing s with
  | zero =>
    cases hrun
    exact run_succ hstep 0
  | succ k ih =>
    obtain ⟨s', hs'⟩ := step_answers s
    rw [run_succ hs'] at hrun ⊢
    exact ih hrun

section
variable {s : State} (hf : s.fault = none) (hempty : ∀ a, 0x200 ≤ a → Memory.read s.mem a = 0x00)
include hf hempty

/-- Empty memory is NOPs (R77). -/
theorem executes_nop_of_empty {k : Nat} (hk : k < 1792) :
    Executes { s with pc := BitVec.ofNat 16 (0x200 + 2 * k) } .nop := by
  have hpc : (BitVec.ofNat 16 (0x200 + 2 * k)).toNat = 0x200 + 2 * k := by
    rw [BitVec.toNat_ofNat, Nat.mod_eq_of_lt (by omega)]
  have hword : fetchedWord { s with pc := BitVec.ofNat 16 (0x200 + 2 * k) } = 0x0000 := by
    simp only [fetchedWord, hpc, hempty (0x200 + 2 * k) (by omega), hempty (0x200 + 2 * k + 1) (by omega)]
    rfl
  exact ⟨hf, hpc.trans_le (by omega), hword ▸ rfl⟩

/-- From 0x200 on each step through empty memory only advances PC. -/
theorem run_through_empty (hpc : s.pc = 0x200) {k : Nat} (hk : k ≤ 1792) :
    Host.Core.run Sys2Proof.core k s = .next { s with pc := BitVec.ofNat 16 (0x200 + 2 * k) } := by
  induction k with
  | zero =>
    have hs : s = { s with pc := 0x200 } := by rw [← hpc]
    exact congrArg Host.Outcome.next hs
  | succ k ih =>
    have hadv : BitVec.ofNat 16 (0x200 + 2 * (k + 1)) = BitVec.ofNat 16 (0x200 + 2 * k) + 2 :=
      BitVec.ofNat_add (0x200 + 2 * k) 2
    rw [hadv]
    exact run_succ_of_run (ih (by omega)) (step_of_executes (executes_nop_of_empty hf hempty hk))

end

/-- What reset leaves of memory reads as empty from 0x200 on, whatever was loaded before (R231, R233). -/
theorem read_transact_reset_of_ge {a : Nat} (ha : 0x200 ≤ a) (s : State) :
    Memory.read (transact .reset s).1.mem a = 0x00 := unlisted_beyond (by omega)

/-- Settles O16: after 1792 NOPs the fetch is at 0x1000, beyond memory. -/
theorem steppingEmptyMemoryRunsNopsToTheEnd : Obligations.SteppingEmptyMemoryRunsNopsToTheEnd := by
  intro bytes s s₀
  have hempty : ∀ a, 0x200 ≤ a → Memory.read s₀.mem a = 0x00 := fun a ha => read_transact_reset_of_ge ha _
  have hend : Host.Core.run Sys2Proof.core 1792 s₀ = .next { s₀ with pc := 0x1000 } :=
    run_through_empty rfl hempty rfl (Nat.le_refl 1792)
  have hbeyond : 4095 ≤ (0x1000 : Word).toNat := by decide
  exact ⟨hempty, fun k hk => run_through_empty rfl hempty rfl hk, fun k hk => executes_nop_of_empty rfl hempty hk,
    run_succ_of_run hend (fetchBeyondMemoryFaults { s₀ with pc := 0x1000 } rfl hbeyond)⟩

/-! ### The reachable states (R51, R231) -/

theorem inv_of_reachable {s : State} (h : Reachable s) : Inv s := by
  induction h with
  | reset => exact invariantHoldsAtReset
  | transact tr _ ih => exact everyTransactionKeepsTheInvariant tr _ ih

/-- Settles O20: the invariant holds of every reachable state, and what it says of memory below 0x200 is what reset left
there. -/
theorem reachableStatesKeepLowMemory : Obligations.ReachableStatesKeepLowMemory := by
  intro s h
  obtain ⟨hmem, hlow, hpc, -⟩ := inv_of_reachable h
  refine ⟨hmem, fun a ha => ?glyphs, fun a hlo hhi => ?zeros, hpc, Nat.le_of_lt_succ s.sp.isLt⟩
  case glyphs => rw [hlow a (by omega), unlisted_glyph ha]
  case zeros => rw [hlow a hhi, unlisted_beyond hlo]

end Sys2Proof.Machine
end
